-- ==== Sys2Proof/Word.lean ====
section
/-!
DEFINITION. Word.lean: the two value types of 00_scope.md R6, and byte sequences of R7.
-/
namespace Sys2Proof

/-- R6: a byte is an 8-bit unsigned value. -/
abbrev Byte := BitVec 8

/-- R6: a word is a 32-bit unsigned value; `+` on it is addition modulo 2^32. -/
abbrev Word := BitVec 32

end Sys2Proof
end

