-- ==== Sys2Proof/Config.lean ====
section
/-!
DEFINITION. Config.lean: the implementation parameters of 00_scope.md R5 and the one free value.
The widths that stand in types (64, 16 and 33 bytes) are written there as numerals.
-/
namespace Sys2Proof

/-- BLOCK_BYTES (R5): the block size. -/
@[simp] abbrev Config.blockBytes : Nat := 64

/-- ROUNDS (R5): round steps per block. -/
@[simp] abbrev Config.rounds : Nat := 64

/-- DIGEST_BYTES (R5). -/
@[simp] abbrev Config.digestBytes : Nat := 16

/-- HEX_CHARS (R5). -/
@[simp] abbrev Config.hexChars : Nat := 32

/-- HEXBUF_BYTES (R5): 32 characters and the terminator. -/
@[simp] abbrev Config.hexbufBytes : Nat := 33

/-- PROC_MAX (R5): the most bytes one PROCESS absorbs. -/
@[simp] abbrev Config.procMax : Nat := 64

/-- RESP_MAX (R5): the longest response. -/
@[simp] abbrev Config.respMax : Nat := 33

/-- THE FREE VALUE (00_scope.md R10, decision D25): the oracle's byte number k. It has no body, so
nothing can be proved of its value: every byte is admitted, and bytes of distinct numbers are
independent. Who draws which number is the model's choice, log entry 4: State.draws counts the draws
of one block, and Engines.draws those of all instances of a system. -/
opaque Config.unspecByte : Nat → Byte

end Sys2Proof
end

