-- ==== Sys2Proof/Syntax.lean ====
section
/-!
DEFINITION. Syntax.lean: the ten commands of 30_encoding.md R72, one constructor per row of
spec/opcode_table.json, with the operands of R74 to R76. Bulk operands arrive on the DIN lanes (R83).
-/
namespace Sys2Proof

/-- A legal command word, decoded (R80). An illegal word is no `Instr`: `decode` rejects it by name
and the machine gives it the effect of 43_control.md R204. -/
inductive Instr where
  /-- NOP, OP 0x0. -/
  | nop
  /-- INIT, OP 0x1. -/
  | init
  /-- PROCESS, OP 0x2: N = ARG[6:0] (R74), at most 64 in a well-formed command. -/
  | process (n : BitVec 7)
  /-- FINISH, OP 0x3: COPY = ARG[0] (R75). -/
  | finish (copy : Bool)
  /-- GET_DIGEST, OP 0x4. -/
  | getDigest
  /-- GET_HEX, OP 0x5. -/
  | getHex
  /-- HEX_ENCODE, OP 0x6: CAP = ARG[5:0] (R76). -/
  | hexEncode (cap : BitVec 6)
  /-- HEX_DECODE, OP 0x7. -/
  | hexDecode
  /-- READ_STATUS, OP 0x8. -/
  | readStatus
  /-- CLEAR_STATUS, OP 0x9. -/
  | clearStatus
  deriving DecidableEq, Repr

end Sys2Proof
end

