-- ==== Sys2Proof/WellFormed.lean ====
section
/-!
DEFINITION. WellFormed.lean: which terms of `Instr` stand for a legal command word. The one check is
that of 30_encoding.md R74, N at most PROC_MAX: COPY and CAP are legal at every value (R75, R76).
-/
namespace Sys2Proof

/-- R74: "Legal values are 0 to 64." -/
def Instr.wellFormed : Instr → Bool
  | .process n => decide (n.toNat ≤ Config.procMax)
  | .nop | .init | .finish _ | .getDigest | .getHex | .hexEncode _ | .hexDecode
  | .readStatus | .clearStatus => true

end Sys2Proof
end

