-- ==== Sys2Proof/Decode.lean ====
section
/-!
DEFINITION. Decode.lean: the command word of 30_encoding.md, its three fields (R70), the predicate
`legal` (R77), the total decoder (R80), which rejects an illegal word by name (R78), and the encoder
written from R72 and R81.
-/
namespace Sys2Proof

/-- R70: OP = CMD[31:28]. -/
def cmdOp (w : Word) : BitVec 4 := w.extractLsb' 28 4

/-- R70: RSV = CMD[27:8], must be 0. -/
def cmdRsv (w : Word) : BitVec 20 := w.extractLsb' 8 20

/-- R70: ARG = CMD[7:0]. -/
def cmdArg (w : Word) : Byte := w.extractLsb' 0 8

/-- R74: N = ARG[6:0]. -/
def argN (arg : Byte) : BitVec 7 := arg.extractLsb' 0 7

/-- R75: COPY = ARG[0]. -/
def argCopy (arg : Byte) : Bool := arg.getLsbD 0

/-- R76: CAP = ARG[5:0]. -/
def argCap (arg : Byte) : BitVec 6 := arg.extractLsb' 0 6

/-- `Legal(CMD)`, R77, for the words whose RSV field is 0: the condition each opcode puts on ARG. -/
def legalArg (op : BitVec 4) (arg : Byte) : Bool :=
  match op.toNat with
  | 0 | 1 | 4 | 5 | 7 | 8 | 9 => decide (arg = 0x00#8)
  | 2 => decide (arg.extractLsb' 7 1 = 0#1 ∧ (argN arg).toNat ≤ Config.procMax)
  | 3 => decide (arg.extractLsb' 1 7 = 0#7)
  | 6 => decide (arg.extractLsb' 6 2 = 0#2)
  | _ => false

/-- `Legal(CMD)`, R77. -/
def legal (w : Word) : Bool :=
  decide (cmdRsv w = 0#20) && legalArg (cmdOp w) (cmdArg w)

/-- Why a word is illegal (R78). The block records no cause beyond ERR_ILLEGAL (60_exceptions.md
R221): the names are for the reader of a rejection, and no effect depends on them. -/
inductive DecodeError where
  /-- OP 0xA to 0xF. -/
  | reservedOpcode
  /-- A nonzero RSV bit. -/
  | reservedBits
  /-- A nonzero must-be-zero ARG bit. -/
  | argBits
  /-- PROCESS with N above 64. -/
  | countTooLarge
  deriving DecidableEq, Repr

/-- R73: the commands with no operand need ARG = 0x00. -/
def decodeNoArg (arg : Byte) (i : Instr) : Except DecodeError Instr :=
  if arg = 0x00#8 then .ok i else .error .argBits

/-- R74. -/
def decodeProcess (arg : Byte) : Except DecodeError Instr :=
  if arg.extractLsb' 7 1 ≠ 0#1 then .error .argBits
  else if (argN arg).toNat ≤ Config.procMax then .ok (.process (argN arg))
  else .error .countTooLarge

/-- R75. -/
def decodeFinish (arg : Byte) : Except DecodeError Instr :=
  if arg.extractLsb' 1 7 = 0#7 then .ok (.finish (argCopy arg)) else .error .argBits

/-- R76. -/
def decodeHexEncode (arg : Byte) : Except DecodeError Instr :=
  if arg.extractLsb' 6 2 = 0#2 then .ok (.hexEncode (argCap arg)) else .error .argBits

/-- The opcode map, R72. -/
def decodeOp (op : BitVec 4) (arg : Byte) : Except DecodeError Instr :=
  match op.toNat with
  | 0 => decodeNoArg arg .nop
  | 1 => decodeNoArg arg .init
  | 2 => decodeProcess arg
  | 3 => decodeFinish arg
  | 4 => decodeNoArg arg .getDigest
  | 5 => decodeNoArg arg .getHex
  | 6 => decodeHexEncode arg
  | 7 => decodeNoArg arg .hexDecode
  | 8 => decodeNoArg arg .readStatus
  | 9 => decodeNoArg arg .clearStatus
  | _ => .error .reservedOpcode

/-- R80: total on the 2^32 words. -/
def decode (w : Word) : Except DecodeError Instr :=
  if cmdRsv w ≠ 0#20 then .error .reservedBits else decodeOp (cmdOp w) (cmdArg w)

/-- The word of a command, from the table of R81 (opcode map R72, operand fields R74 to R76). -/
def encode : Instr → Word
  | .nop => 0x00000000#32
  | .init => 0x10000000#32
  | .process n => 0x20000000#32 ||| n.zeroExtend 32
  | .finish copy => if copy then 0x30000001#32 else 0x30000000#32
  | .getDigest => 0x40000000#32
  | .getHex => 0x50000000#32
  | .hexEncode cap => 0x60000000#32 ||| cap.zeroExtend 32
  | .hexDecode => 0x70000000#32
  | .readStatus => 0x80000000#32
  | .clearStatus => 0x90000000#32

/-- The command word whose low `nbits` bits are those of `w` and whose other bits are 0. CMD is one
32-bit word presented in parallel (R70), so no byte order comes into it (log entry 11). -/
def tableWord (nbits w : Nat) : Word := BitVec.ofNat 32 (w % 2 ^ nbits)

/-- What the decoder reads from a word numbered as spec/opcode_table.json numbers it. -/
def decodeTableWord (nbits w : Nat) : Option Instr :=
  match decode (tableWord nbits w) with
  | .ok i => some i
  | .error _ => none

end Sys2Proof
end

