-- ==== Sys2Proof/Machine/Constants.lean ====
section
/-!
DEFINITION. Machine/Constants.lean: the tuple of four words that the accumulator and the round
steps work on, and the initial values of 10_state.md R22.
-/
namespace Sys2Proof.Machine

/-- Four words in the order A, B, C, D (10_state.md R21), or the working words a, b, c, d of
41_compression.md R143. -/
structure Words where
  a : Word
  b : Word
  c : Word
  d : Word
  deriving DecidableEq, Repr

/-- IV, R22. -/
def iv : Words := { a := 0x67452301#32, b := 0xEFCDAB89#32, c := 0x98BADCFE#32, d := 0x10325476#32 }

end Sys2Proof.Machine
end

