-- ==== Sys2Proof/Machine/State.lean ====
section
/-!
DEFINITION. Machine/State.lean: the architectural state of 10_state.md R20, the command port of
00_scope.md R9 and 70_reset_and_hazards.md R255, and the state after reset (R250).
-/
namespace Sys2Proof.Machine

/-- What the host does to the block at one step boundary (70_reset_and_hazards.md R255). -/
inductive HostEvent where
  /-- One transaction: the command word and the 64 DIN lanes, presented together (30_encoding.md R71). -/
  | command (cmd : Word) (din : Vector Byte 64)
  /-- The reset input, asserted between two commands (R251). -/
  | reset
  deriving DecidableEq, Repr

/-- The four sticky error flags of STATUS (10_state.md R29, 60_exceptions.md R221). -/
inductive ErrFlag where
  | finished
  | notFinished
  | badHex
  | illegal
  deriving DecidableEq, Repr

/-- The state of one MD5CORE instance. The first twelve fields are the elements of R20 (A to D in one
tuple), the next two the port of 00_scope.md R9, the last two the model's own. -/
@[ext]
structure State where
  /-- A, B, C, D (R21). -/
  acc : Words
  /-- BUF[0..64) (R23). -/
  buf : Vector Byte 64
  /-- LEFT, 7 bits (R24). -/
  left : BitVec 7
  /-- CNT_LO (R25). -/
  cntLo : Word
  /-- CNT_HI (R25). -/
  cntHi : Word
  /-- FINISHED (R26), STATUS bit 0. -/
  finished : Bool
  /-- DIGEST[0..16) (R27). -/
  digest : Vector Byte 16
  /-- HEXBUF[0..33) (R28). -/
  hexbuf : Vector Byte 33
  /-- ERR_FINISHED (R29), STATUS bit 1. -/
  errFinished : Bool
  /-- ERR_NOT_FINISHED (R29), STATUS bit 2. -/
  errNotFinished : Bool
  /-- ERR_BAD_HEX (R29), STATUS bit 3. -/
  errBadHex : Bool
  /-- ERR_ILLEGAL (R29), STATUS bit 4. -/
  errIllegal : Bool
  /-- DIN[0..64): the lanes of the transaction being run (20_memory.md R51). -/
  din : Vector Byte 64
  /-- The response of the last command (20_memory.md R52). -/
  resp : List Byte
  /-- The model's own: the host's events still to come, the next one first (log entry 1). -/
  host : List HostEvent
  /-- The model's own: the number of the next unspecified byte (00_scope.md R10, log entry 4). -/
  draws : Nat
  deriving DecidableEq, Repr

/-- Nobody raises a fault: "MD5CORE never traps, halts, hangs or refuses a command"
(60_exceptions.md R220). The type has no constructor, so no step can end in one. -/
inductive Fault where
  deriving DecidableEq, Repr

/-- The reasons of a refusal. -/
inductive Refusal where
  /-- Kept for the host's interface: an arm of exec for an instruction without a meaning. No arm is of
  that kind and nothing raises it (safe). -/
  | notModelled (mnemonic : String)
  deriving DecidableEq, Repr

/-- The state after reset, R250. The spec states no value for BUF, DIGEST and HEXBUF: they are zero
here by log entry 2. The port fields `din`, `resp`, `host`, `draws` follow log entries 1, 4, 5. -/
def State.reset : State where
  acc := iv
  buf := Vector.replicate 64 0x00#8
  left := 0#7
  cntLo := 0#32
  cntHi := 0#32
  finished := false
  digest := Vector.replicate 16 0x00#8
  hexbuf := Vector.replicate 33 0x00#8
  errFinished := false
  errNotFinished := false
  errBadHex := false
  errIllegal := false
  din := Vector.replicate 64 0x00#8
  resp := []
  host := []
  draws := 0

end Sys2Proof.Machine
end

