-- ==== Sys2Proof/Machine/Ops.lean ====
section
/-!
DEFINITION. Machine/Ops.lean: the word and byte-sequence operations of 00_scope.md R6 and R7, the
responses and unspecified bytes of R9 and R10, and the length accumulator of 41_compression.md R152.
-/
namespace Sys2Proof.Machine

/-- R6: rotl32(x, s), for 1 <= s <= 31. -/
def rotl32 (x : Word) (s : Nat) : Word := (x <<< s) ||| (x >>> (32 - s))

/-- Byte i of a sequence, R7. The rules index within the length; past the end it is 0 (log entry 8). -/
def byteAt (s : List Byte) (i : Nat) : Byte := s.getD i 0x00#8

/-- R7: le32(s, o). -/
def le32 (s : List Byte) (o : Nat) : Word :=
  (byteAt s o).zeroExtend 32 ||| ((byteAt s (o + 1)).zeroExtend 32 <<< 8)
    ||| ((byteAt s (o + 2)).zeroExtend 32 <<< 16) ||| ((byteAt s (o + 3)).zeroExtend 32 <<< 24)

/-- R7: bytes_le32(w) = [w[7:0], w[15:8], w[23:16], w[31:24]]. -/
def bytesLe32 (w : Word) : List Byte :=
  [w.extractLsb' 0 8, w.extractLsb' 8 8, w.extractLsb' 16 8, w.extractLsb' 24 8]

/-- R7: zeros(n). -/
def zeros (n : Nat) : List Byte := List.replicate n 0x00#8

/-- A byte sequence of length n as the contents of an n-byte array. -/
def packBytes (n : Nat) (s : List Byte) : Vector Byte n := Vector.ofFn fun i => byteAt s i.val

/-- An n-byte array with the bytes `s` written from index `off` on; every other byte is kept. -/
def writeBytes {n : Nat} (v : Vector Byte n) (off : Nat) (s : List Byte) : Vector Byte n :=
  Vector.ofFn fun i =>
    if off ≤ i.val ∧ i.val < off + s.length then byteAt s (i.val - off) else v[i.val]

/-- R9: respond(s). Every meaning ends in one; a command that calls no respond has `respond []`. -/
def respond (r : List Byte) (s : State) : State := { s with resp := r }

/-- R10: the unspecified bytes number k to k + n - 1 of the one oracle (log entry 4). -/
def unspecAt (k n : Nat) : List Byte := (List.range n).map fun j => Config.unspecByte (k + j)

/-- R10: respond(unspec(n)): n draws no earlier command made. `draws` is this block's count, or, for
an instance that `stepEngine` runs, the whole system's, so no other instance made them either
(log entry 4). -/
def respondUnspec (n : Nat) (s : State) : State :=
  { s with resp := unspecAt s.draws n, draws := s.draws + n }

/-- R152: CntAdd(n). -/
def cntAdd (n : Nat) (s : State) : State :=
  let lo := s.cntLo + BitVec.ofNat 32 n
  { s with
    cntHi := if lo < BitVec.ofNat 32 n then s.cntHi + 1#32 else s.cntHi
    cntLo := lo }

/-- The element values that INIT (43_control.md R201) and the reset input (70_reset_and_hazards.md
R250) leave: IV, zero counts, no flag, and unspecified BUF, DIGEST and HEXBUF, which are 64, 16 and 33
fresh draws (log entry 3). The port is not touched. -/
def initEngine (s : State) : State :=
  { s with
    acc := iv
    buf := packBytes 64 (unspecAt s.draws 64)
    left := 0#7
    cntLo := 0#32
    cntHi := 0#32
    finished := false
    digest := packBytes 16 (unspecAt (s.draws + 64) 16)
    hexbuf := packBytes 33 (unspecAt (s.draws + 80) 33)
    errFinished := false
    errNotFinished := false
    errBadHex := false
    errIllegal := false
    draws := s.draws + 113 }

end Sys2Proof.Machine
end

