-- ==== Sys2Proof/Machine/Flags.lean ====
section
/-!
DEFINITION. Machine/Flags.lean: the STATUS view and its sticky error flags (10_state.md R29 to R31).
`setErr` is the one operation that records a misuse; the block has no exception entry
(60_exceptions.md R220, R223).
-/
namespace Sys2Proof.Machine

/-- A flag's value. -/
def errFlag (f : ErrFlag) (s : State) : Bool :=
  match f with
  | .finished => s.errFinished
  | .notFinished => s.errNotFinished
  | .badHex => s.errBadHex
  | .illegal => s.errIllegal

/-- R31: set_err(F) sets flag F and leaves every other bit of the state unchanged. -/
def setErr (f : ErrFlag) (s : State) : State :=
  match f with
  | .finished => { s with errFinished := true }
  | .notFinished => { s with errNotFinished := true }
  | .badHex => { s with errBadHex := true }
  | .illegal => { s with errIllegal := true }

/-- 43_control.md R203: the four flags cleared, FINISHED kept. -/
def clearErrs (s : State) : State :=
  { s with errFinished := false, errNotFinished := false, errBadHex := false, errIllegal := false }

/-- zext_8 of a one-bit element. -/
def zextBit (b : Bool) : Byte := (BitVec.ofBool b).zeroExtend 8

/-- R30: the byte a read of STATUS returns. -/
def statusByte (s : State) : Byte :=
  zextBit s.errIllegal <<< 4 ||| zextBit s.errBadHex <<< 3 ||| zextBit s.errNotFinished <<< 2
    ||| zextBit s.errFinished <<< 1 ||| zextBit s.finished

/-- 43_control.md R204: the effect of an illegal command word. -/
def illegal (s : State) : State := respond [] (setErr .illegal s)

end Sys2Proof.Machine
end

