-- ==== Sys2Proof/Machine/Control.lean ====
section
/-!
DEFINITION. Machine/Control.lean: the control commands of 43_control.md.
-/
namespace Sys2Proof.Machine

/-- R200: NOP. -/
def execNop (s : State) : Host.Outcome State Fault Refusal := .next (respond [] s)

/-- R201: INIT. -/
def execInit (s : State) : Host.Outcome State Fault Refusal := .next (respond [] (initEngine s))

/-- R202: READ_STATUS. -/
def execReadStatus (s : State) : Host.Outcome State Fault Refusal :=
  .next (respond [statusByte s] s)

/-- R203: CLEAR_STATUS. -/
def execClearStatus (s : State) : Host.Outcome State Fault Refusal :=
  .next (respond [] (clearErrs s))

end Sys2Proof.Machine
end

