-- ==== Sys2Proof/Machine/Compression.lean ====
section
/-!
DEFINITION. Machine/Compression.lean: the compression pipeline of 41_compression.md, with the
constants of R146 to R150 as the step table R157 lists them.
-/
namespace Sys2Proof.Machine

/-- R146: F. -/
def auxF (x y z : Word) : Word := (x &&& y) ||| (~~~x &&& z)

/-- R146: G. -/
def auxG (x y z : Word) : Word := (x &&& z) ||| (y &&& ~~~z)

/-- R146: H. -/
def auxH (x y z : Word) : Word := x ^^^ y ^^^ z

/-- R146: I. -/
def auxI (x y z : Word) : Word := y ^^^ (x ||| ~~~z)

/-- R147: Fn(i, x, y, z), the function of step i's group. -/
def auxFn (i : Nat) (x y z : Word) : Word :=
  if i < 16 then auxF x y z
  else if i < 32 then auxG x y z
  else if i < 48 then auxH x y z
  else auxI x y z

/-- R148: k(i), the message word that step i adds. -/
def msgIndex (i : Nat) : Nat :=
  if i < 16 then i
  else if i < 32 then (5 * i + 1) % 16
  else if i < 48 then (3 * i + 5) % 16
  else (7 * i) % 16

/-- One row of R149's table, by i mod 4. -/
def pick4 (i s0 s1 s2 s3 : Nat) : Nat :=
  if i % 4 = 0 then s0 else if i % 4 = 1 then s1 else if i % 4 = 2 then s2 else s3

/-- R149: s(i), the rotation of step i. -/
def shiftAmount (i : Nat) : Nat :=
  if i < 16 then pick4 i 7 12 17 22
  else if i < 32 then pick4 i 5 9 14 20
  else if i < 48 then pick4 i 4 11 16 23
  else pick4 i 6 10 15 21

/-- R157, the constants of steps 0 to 15. -/
def addConstF : List Word :=
  [0xD76AA478#32, 0xE8C7B756#32, 0x242070DB#32, 0xC1BDCEEE#32,
   0xF57C0FAF#32, 0x4787C62A#32, 0xA8304613#32, 0xFD469501#32,
   0x698098D8#32, 0x8B44F7AF#32, 0xFFFF5BB1#32, 0x895CD7BE#32,
   0x6B901122#32, 0xFD987193#32, 0xA679438E#32, 0x49B40821#32]

/-- R157, the constants of steps 16 to 31. -/
def addConstG : List Word :=
  [0xF61E2562#32, 0xC040B340#32, 0x265E5A51#32, 0xE9B6C7AA#32,
   0xD62F105D#32, 0x02441453#32, 0xD8A1E681#32, 0xE7D3FBC8#32,
   0x21E1CDE6#32, 0xC33707D6#32, 0xF4D50D87#32, 0x455A14ED#32,
   0xA9E3E905#32, 0xFCEFA3F8#32, 0x676F02D9#32, 0x8D2A4C8A#32]

/-- R157, the constants of steps 32 to 47. -/
def addConstH : List Word :=
  [0xFFFA3942#32, 0x8771F681#32, 0x6D9D6122#32, 0xFDE5380C#32,
   0xA4BEEA44#32, 0x4BDECFA9#32, 0xF6BB4B60#32, 0xBEBFBC70#32,
   0x289B7EC6#32, 0xEAA127FA#32, 0xD4EF3085#32, 0x04881D05#32,
   0xD9D4D039#32, 0xE6DB99E5#32, 0x1FA27CF8#32, 0xC4AC5665#32]

/-- R157, the constants of steps 48 to 63. -/
def addConstI : List Word :=
  [0xF4292244#32, 0x432AFF97#32, 0xAB9423A7#32, 0xFC93A039#32,
   0x655B59C3#32, 0x8F0CCC92#32, 0xFFEFF47D#32, 0x85845DD1#32,
   0x6FA87E4F#32, 0xFE2CE6E0#32, 0xA3014314#32, 0x4E0811A1#32,
   0xF7537E82#32, 0xBD3AF235#32, 0x2AD7D2BB#32, 0xEB86D391#32]

/-- R150, R157: T[i] for i = 0 to 63. -/
def addConst (i : Nat) : Word := (addConstF ++ addConstG ++ addConstH ++ addConstI).getD i 0#32

/-- R142: M[j] = le32(blk, 4*j) for j = 0 to 15. -/
def messageWords (blk : List Byte) : List Word := (List.range 16).map fun j => le32 blk (4 * j)

/-- R144 and R145: round step i on the working words, with message words m. -/
def roundStep (m : List Word) (i : Nat) (w : Words) : Words :=
  let t := w.a + auxFn i w.b w.c w.d + addConst i + m.getD (msgIndex i) 0#32
  { a := w.d, b := w.b + rotl32 t (shiftAmount i), c := w.b, d := w.c }

/-- Round steps 0 to n - 1 in order. -/
def roundSteps (m : List Word) (n : Nat) (w : Words) : Words :=
  (List.range n).foldl (fun w i => roundStep m i w) w

/-- R151: the feed-forward. -/
def Words.plus (x y : Words) : Words :=
  { a := x.a + y.a, b := x.b + y.b, c := x.c + y.c, d := x.d + y.d }

/-- R142 to R151: the four words after one 64-byte block. -/
def compressWords (acc : Words) (blk : List Byte) : Words :=
  acc.plus (roundSteps (messageWords blk) Config.rounds acc)

/-- R140: Compress(blk) updates CNT, A, B, C and D and nothing else. -/
def compress (blk : List Byte) (s : State) : State :=
  let s1 := cntAdd Config.blockBytes s
  { s1 with acc := compressWords s1.acc blk }

end Sys2Proof.Machine
end

