-- ==== Sys2Proof/Machine/Operands.lean ====
section
/-!
DEFINITION. Machine/Operands.lean: the operand forms. N, COPY and CAP come from the command word as
unsigned fields (30_encoding.md R83); bulk operands are the low DIN lanes of 20_memory.md R51.
-/
namespace Sys2Proof.Machine

/-- DIN[0..n), DIN[0] first (R51, R57). -/
def dinLanes (n : Nat) (s : State) : List Byte := s.din.toList.take n

/-- How many of the low DIN lanes a command reads (the table of R51). -/
def lanesRead : Instr → Nat
  | .process n => n.toNat
  | .hexEncode _ => 16
  | .hexDecode => 32
  | .nop | .init | .finish _ | .getDigest | .getHex | .readStatus | .clearStatus => 0

end Sys2Proof.Machine
end

