-- ==== Sys2Proof/Machine/HexCodec.lean ====
section
/-!
DEFINITION. Machine/HexCodec.lean: the hex codec of 42_hex_codec.md and the meanings of HEX_ENCODE
and HEX_DECODE.
-/
namespace Sys2Proof.Machine

/-- R180: HEX[0..16). -/
def hexAlphabet : List Byte :=
  [0x30#8, 0x31#8, 0x32#8, 0x33#8, 0x34#8, 0x35#8, 0x36#8, 0x37#8,
   0x38#8, 0x39#8, 0x61#8, 0x62#8, 0x63#8, 0x64#8, 0x65#8, 0x66#8]

/-- R180: HEX[v] for a nibble v. -/
def hexChar (v : BitVec 4) : Byte := byteAt hexAlphabet v.toNat

/-- R180: the terminator. -/
def terminator : Byte := 0x00#8

/-- R181, R56: the two characters of a byte, high nibble first. -/
def hexPair (b : Byte) : List Byte := [hexChar (b.extractLsb' 4 4), hexChar (b.extractLsb' 0 4)]

/-- R181: the string H of all the characters. -/
def hexChars (d : List Byte) : List Byte := d.flatMap hexPair

/-- R181: HexEncode(d, cap). -/
def hexEncode (d : List Byte) (cap : Nat) : List Byte :=
  let out := (hexChars d).take (min cap Config.hexChars)
  if cap ≥ Config.hexbufBytes then out ++ [terminator] else out

/-- R183: HexVal(c), `none` for INVALID. -/
def hexVal (c : Byte) : Option (BitVec 4) :=
  if 0x30#8 ≤ c ∧ c ≤ 0x39#8 then some ((c - 0x30#8).setWidth 4)
  else if 0x61#8 ≤ c ∧ c ≤ 0x66#8 then some ((c - 0x61#8 + 10#8).setWidth 4)
  else none

/-- R184: 16 * hi + lo, for two nibbles. -/
def joinNibbles (hi lo : BitVec 4) : Byte := 16#8 * hi.zeroExtend 8 + lo.zeroExtend 8

/-- R184: HexDecode(h), two characters per byte, `none` for INVALID. The rule gives it 32 characters;
a single character left over is INVALID. -/
def hexDecode : List Byte → Option (List Byte)
  | [] => some []
  | [_] => none
  | c0 :: c1 :: rest =>
    match hexVal c0, hexVal c1, hexDecode rest with
    | some hi, some lo, some out => some (joinNibbles hi lo :: out)
    | _, _, _ => none

/-- R182: HEX_ENCODE. -/
def execHexEncode (cap : BitVec 6) (s : State) : Host.Outcome State Fault Refusal :=
  .next (respond (hexEncode (dinLanes Config.digestBytes s) cap.toNat) s)

/-- R185: HEX_DECODE. -/
def execHexDecode (s : State) : Host.Outcome State Fault Refusal :=
  match hexDecode (dinLanes Config.hexChars s) with
  | none => .next (respondUnspec Config.digestBytes (setErr .badHex s))
  | some out => .next (respond out s)

end Sys2Proof.Machine
end

