-- ==== Sys2Proof/Machine/Stream.lean ====
section
/-!
DEFINITION. Machine/Stream.lean: the streaming buffer, the padding sequencer and the digest queries of
40_stream_and_finish.md, and the meanings of PROCESS, FINISH, GET_DIGEST and GET_HEX.
-/
namespace Sys2Proof.Machine

/-- R100, phase 2: whole blocks straight from the chunk, at most `fuel` of them; the bytes not
consumed come back with the state. -/
def absorbBlocks : Nat → List Byte → State → List Byte × State
  | 0, data, s => (data, s)
  | fuel + 1, data, s =>
    if Config.blockBytes ≤ data.length then
      absorbBlocks fuel (data.drop Config.blockBytes) (compress (data.take Config.blockBytes) s)
    else (data, s)

/-- R100, phase 3: the tail goes to BUF[LEFT..), and LEFT grows by its length. -/
def appendTail (data : List Byte) (s : State) : State :=
  { s with
    buf := writeBytes s.buf s.left.toNat data
    left := BitVec.ofNat 7 (s.left.toNat + data.length) }

/-- R100, phases 2 and 3. -/
def absorbRest (data : List Byte) (s : State) : State :=
  let r := absorbBlocks (data.length / Config.blockBytes) data s
  appendTail r.1 r.2

/-- R100, the body of phase 1: BUF is completed with `k` = 64 - LEFT bytes and compressed. -/
def completeBlock (data : List Byte) (s : State) : State :=
  let buf := writeBytes s.buf s.left.toNat data
  { compress buf.toList { s with buf := buf } with left := 0#7 }

/-- R100: ProcessChunk(data). -/
def processChunk (data : List Byte) (s : State) : State :=
  if 0 < s.left.toNat ∧ Config.blockBytes ≤ s.left.toNat + data.length then
    let k := Config.blockBytes - s.left.toNat
    absorbRest (data.drop k) (completeBlock (data.take k) s)
  else absorbRest data s

/-- R106: PROCESS. The word of a count above 64 is illegal and never reaches R106 (30_encoding.md R78);
its term, which the decoder never gives, has the effect of that word (log entry 7). -/
def execProcess (n : BitVec 7) (s : State) : Host.Outcome State Fault Refusal :=
  if Config.procMax < n.toNat then .next (illegal s)
  else if s.finished then .next (respond [] (setErr .finished s))
  else .next (respond [] (processChunk (dinLanes n.toNat s) s))

/-- R109: BITS_LO. -/
def bitsLo (cntLo : Word) : Word := cntLo <<< 3

/-- R109: BITS_HI. -/
def bitsHi (cntHi cntLo : Word) : Word := (cntHi <<< 3) ||| (cntLo >>> 29)

/-- R110: P, "a signed integer" before the adjustment. -/
def padAmount (left : Nat) : Nat :=
  let p : Int := 56 - (left : Int)
  (if p ≤ 0 then p + 64 else p).toNat

/-- R111: TAIL, from the state after CntAdd(LEFT). -/
def paddedTail (s : State) : List Byte :=
  s.buf.toList.take s.left.toNat ++ [0x80#8] ++ zeros (padAmount s.left.toNat - 1)
    ++ bytesLe32 (bitsLo s.cntLo) ++ bytesLe32 (bitsHi s.cntHi s.cntLo)

/-- R112: one `Compress`, or two when len(TAIL) = 128. -/
def compressTail (tail : List Byte) (s : State) : State :=
  let s1 := compress (tail.take Config.blockBytes) s
  if tail.length = 128 then compress ((tail.drop Config.blockBytes).take Config.blockBytes) s1
  else s1

/-- R113, R54: bytes_le32 of A, B, C and D. -/
def digestBytes (w : Words) : List Byte :=
  bytesLe32 w.a ++ bytesLe32 w.b ++ bytesLe32 w.c ++ bytesLe32 w.d

/-- R113 to R115: DIGEST and HEXBUF from A to D, then FINISHED. -/
def storeDigest (s : State) : State :=
  let dig := digestBytes s.acc
  { s with
    digest := packBytes 16 dig
    hexbuf := packBytes 33 (hexEncode dig Config.hexbufBytes)
    finished := true }

/-- R107 to R115: finalisation of an engine that is not finished. -/
def finalise (s : State) : State :=
  let s1 := cntAdd s.left.toNat s
  storeDigest (compressTail (paddedTail s1) s1)

/-- R107, R116: FINISH. -/
def execFinish (copy : Bool) (s : State) : Host.Outcome State Fault Refusal :=
  if s.finished then .next (respond [] (setErr .finished s))
  else
    let t := finalise s
    .next (respond (if copy then t.digest.toList else []) t)

/-- R117: GET_DIGEST. -/
def execGetDigest (s : State) : Host.Outcome State Fault Refusal :=
  if s.finished then .next (respond s.digest.toList s)
  else .next (respondUnspec Config.digestBytes (setErr .notFinished s))

/-- R118: GET_HEX. -/
def execGetHex (s : State) : Host.Outcome State Fault Refusal :=
  if s.finished then .next (respond s.hexbuf.toList s)
  else .next (respondUnspec Config.hexbufBytes (setErr .notFinished s))

end Sys2Proof.Machine
end

