-- ==== Sys2Proof/Machine/Dispatch.lean ====
section
/-!
DEFINITION. Machine/Dispatch.lean: the opcode map of 30_encoding.md R72, one arm per command.
-/
namespace Sys2Proof.Machine

/-- The step of 00_scope.md R9 on a decoded command, its DIN lanes in the state. -/
def exec (i : Instr) (s : State) : Host.Outcome State Fault Refusal :=
  match i with
  | .nop => Sys2Proof.Machine.execNop s
  | .init => Sys2Proof.Machine.execInit s
  | .process n => Sys2Proof.Machine.execProcess n s
  | .finish copy => Sys2Proof.Machine.execFinish copy s
  | .getDigest => Sys2Proof.Machine.execGetDigest s
  | .getHex => Sys2Proof.Machine.execGetHex s
  | .hexEncode cap => Sys2Proof.Machine.execHexEncode cap s
  | .hexDecode => Sys2Proof.Machine.execHexDecode s
  | .readStatus => Sys2Proof.Machine.execReadStatus s
  | .clearStatus => Sys2Proof.Machine.execClearStatus s

end Sys2Proof.Machine
end

