-- ==== Sys2Proof/Machine/Port.lean ====
section
/-!
DEFINITION. Machine/Port.lean: the command port. A transaction is decoded and run (00_scope.md R9), an
illegal word has the effect of 43_control.md R204, the reset input that of 70_reset_and_hazards.md R250.
-/
namespace Sys2Proof.Machine

/-- A command word run on a state whose `din` holds its lanes. -/
def runWord (cmd : Word) (s : State) : Host.Outcome State Fault Refusal :=
  match decode cmd with
  | .ok i => exec i s
  | .error _ => .next (illegal s)

/-- R9: the step (S, CMD, DIN) to (S', response). -/
def transact (cmd : Word) (din : Vector Byte 64) (s : State) : Host.Outcome State Fault Refusal :=
  runWord cmd { s with din := din }

/-- R250, R251: the reset input between commands. It gives the state INIT leaves, and no response
(R255). -/
def resetInput (s : State) : State := respond [] (initEngine s)

/-- R255: the block takes the host's next event; with none pending it waits (log entry 1). -/
def takeEvent (s : State) : Host.Outcome State Fault Refusal :=
  match s.host with
  | [] => .next s
  | .reset :: rest => .next (resetInput { s with host := rest })
  | .command cmd din :: rest => transact cmd din { s with host := rest }

/-- The state with a command word as the host's next event, its lanes those already in `din`, before
the events already pending. -/
def presentWord (cmd : Word) (s : State) : State :=
  { s with host := .command cmd s.din :: s.host }

end Sys2Proof.Machine
end

