-- ==== Sys2Proof/Machine/Step.lean ====
section
/-!
DEFINITION. Machine/Step.lean: one step of the block, and how an instruction is placed where it is
taken next.
-/
namespace Sys2Proof.Machine

/-- One step: the host's next event. -/
def step (s : State) : Host.Outcome State Fault Refusal := Sys2Proof.Machine.takeEvent s

/-- `s` with the word `w` of `nbits` bits as the host's next command (log entry 1). -/
def State.withFetchWord (s : State) (nbits w : Nat) : State :=
  Sys2Proof.Machine.presentWord (Sys2Proof.tableWord nbits w) s

end Sys2Proof.Machine
end

