-- ==== Sys2Proof/Machine/Assembler.lean ====
section
/-!
DEFINITION. Machine/Assembler.lean: the assembly syntax of 30_encoding.md R81 and the pseudo-commands
of R82, as the host events they stand for. What R81 leaves open of the syntax is in log entry 13.
-/
namespace Sys2Proof.Machine

/-- A transaction: the command's word and its lanes. Lanes not given are don't-care (R81) and are
0x00 here. -/
def commandEvent (i : Instr) (din : List Byte) : HostEvent :=
  .command (encode i) (packBytes 64 din)

/-- PROCESS with a chunk of at most 64 bytes. -/
def processEvent (chunk : List Byte) : HostEvent :=
  commandEvent (.process (BitVec.ofNat 7 chunk.length)) chunk

/-- The chunks of ABSORB (R82): 64 bytes each while more than 64 remain, then the rest, an empty one
for the empty sequence. -/
def absorbChunks : Nat → List Byte → List (List Byte)
  | 0, s => [s]
  | fuel + 1, s =>
    if s.length ≤ Config.procMax then [s]
    else s.take Config.procMax :: absorbChunks fuel (s.drop Config.procMax)

/-- R82: ABSORB. -/
def absorbEvents (s : List Byte) : List HostEvent :=
  (absorbChunks (s.length / Config.procMax) s).map processEvent

/-- R82: HASH. -/
def hashEvents (s : List Byte) : List HostEvent :=
  commandEvent .init [] :: absorbEvents s ++ [commandEvent (.finish true) [], commandEvent .getHex []]

/-- R82: ROUNDTRIP. The DIN of its HEX_DECODE are the 32 bytes its HEX_ENCODE responds with (R182). -/
def roundtripEvents (d : List Byte) : List HostEvent :=
  [commandEvent (.hexEncode 32#6) d, commandEvent .hexDecode (hexEncode d 32)]

/-- The tokens of a line. -/
inductive AsmToken where
  | name (s : List Char)
  | comma
  | equals
  | text (s : List Byte)
  deriving DecidableEq, Repr

/-- R7: the ASCII code of a character. -/
def asciiByte (c : Char) : Option Byte :=
  if c.toNat < 128 then some (BitVec.ofNat 8 c.toNat) else none

/-- R7: the bytes of a quoted string. -/
def asciiBytes : List Char → Option (List Byte)
  | [] => some []
  | c :: cs =>
    match asciiByte c, asciiBytes cs with
    | some b, some bs => some (b :: bs)
    | _, _ => none

/-- A character that belongs to a name. -/
def isNameChar (c : Char) : Bool :=
  c ≠ ' ' && c ≠ '\t' && c ≠ ',' && c ≠ '=' && c ≠ ';' && c ≠ '"'

/-- The tokens of a line up to a comment, which `;` starts (R81). -/
def lexLine : Nat → List Char → Option (List AsmToken)
  | 0, _ => some []
  | _, [] => some []
  | fuel + 1, c :: cs =>
    if c = ' ' || c = '\t' then lexLine fuel cs
    else if c = ';' then some []
    else if c = ',' then (lexLine fuel cs).map (AsmToken.comma :: ·)
    else if c = '=' then (lexLine fuel cs).map (AsmToken.equals :: ·)
    else if c = '"' then
      match asciiBytes (cs.takeWhile (· ≠ '"')), cs.dropWhile (· ≠ '"') with
      | some bs, _ :: rest => (lexLine fuel rest).map (AsmToken.text bs :: ·)
      | _, _ => none
    else
      (lexLine fuel (cs.dropWhile isNameChar)).map (AsmToken.name (c :: cs.takeWhile isNameChar) :: ·)

/-- The codes of `A` to `F` as those of `a` to `f`; any other byte as it is. -/
def smallLetter (b : Byte) : Byte := if 0x41#8 ≤ b ∧ b ≤ 0x46#8 then b + 0x20#8 else b

/-- The value of a hexadecimal digit of either case (log entry 13): HexVal (42_hex_codec.md R183) of
its ASCII code. -/
def hexDigit (c : Char) : Option Nat :=
  (asciiByte c).bind fun b => (hexVal (smallLetter b)).map BitVec.toNat

/-- A number in the given base, of at least one digit. -/
def digitsValue (base : Nat) (cs : List Char) : Option Nat :=
  if cs = [] then none
  else cs.foldl (init := some 0) fun v c =>
    match v, hexDigit c with
    | some v, some d => if d < base then some (base * v + d) else none
    | _, _ => none

/-- R81: the operand of `.word`, one to eight digits, with or without `0x` before them. How many
digits there may be is the model's choice (log entry 13). -/
def wordValue (cs : List Char) : Option Word :=
  let digits := if cs.take 2 = ['0', 'x'] then cs.drop 2 else cs
  if digits.length ≤ 8 then (digitsValue 16 digits).map (BitVec.ofNat 32) else none

/-- R81: hex byte pairs, several names or one run. -/
def hexPairs : List Char → Option (List Byte)
  | [] => some []
  | [_] => none
  | c0 :: c1 :: cs =>
    match hexDigit c0, hexDigit c1, hexPairs cs with
    | some hi, some lo, some bs => some (BitVec.ofNat 8 (16 * hi + lo) :: bs)
    | _, _, _ => none

/-- The names of a list of byte pairs. -/
def dinPairs : List AsmToken → Option (List Byte)
  | [] => some []
  | .name cs :: ts =>
    match hexPairs cs, dinPairs ts with
    | some bs, some rest => some (bs ++ rest)
    | _, _ => none
  | .comma :: _ | .equals :: _ | .text _ :: _ => none

/-- R81: `din=` takes hex byte pairs or a quoted string. -/
def dinOperand : List AsmToken → Option (List Byte)
  | [.name ['d', 'i', 'n'], .equals, .text bs] => some bs
  | .name ['d', 'i', 'n'] :: .equals :: ts => dinPairs ts
  | _ => none

/-- `n, din=...` with exactly `len n` bytes given, or `n` alone when that is none. -/
def countOperand (max : Nat) (len : Nat → Nat) : List AsmToken → Option (Nat × List Byte)
  | .name cs :: rest =>
    match digitsValue 10 cs with
    | none => none
    | some n =>
      let din := match rest with
        | [] => some []
        | .comma :: ts => dinOperand ts
        | _ => none
      match din with
      | some bs => if n ≤ max && bs.length = len n then some (n, bs) else none
      | none => none
  | _ => none

/-- A `din=` operand of exactly `len` bytes. -/
def dinOfLength (len : Nat) (ts : List AsmToken) : Option (List Byte) :=
  match dinOperand ts with
  | some bs => if bs.length = len then some bs else none
  | none => none

/-- The events of one line's tokens: the table of R81, then that of R82. That a line with no token stands
for no command is the model's choice (log entry 13). -/
def assembleTokens : List AsmToken → Option (List HostEvent)
  | [] => some []
  | .name m :: ts =>
    if m = "NOP".toList then if ts = [] then some [commandEvent .nop []] else none
    else if m = "INIT".toList then if ts = [] then some [commandEvent .init []] else none
    else if m = "PROCESS".toList then
      (countOperand Config.procMax id ts).map fun p =>
        [commandEvent (.process (BitVec.ofNat 7 p.1)) p.2]
    else if m = "FINISH".toList then
      if ts = [] then some [commandEvent (.finish false) []]
      else if ts = [.name "COPY".toList] then some [commandEvent (.finish true) []]
      else none
    else if m = "GET_DIGEST".toList then if ts = [] then some [commandEvent .getDigest []] else none
    else if m = "GET_HEX".toList then if ts = [] then some [commandEvent .getHex []] else none
    else if m = "HEX_ENCODE".toList then
      (countOperand 63 (fun _ => Config.digestBytes) ts).map fun p =>
        [commandEvent (.hexEncode (BitVec.ofNat 6 p.1)) p.2]
    else if m = "HEX_DECODE".toList then
      (dinOfLength Config.hexChars ts).map fun bs => [commandEvent .hexDecode bs]
    else if m = "READ_STATUS".toList then if ts = [] then some [commandEvent .readStatus []] else none
    else if m = "CLEAR_STATUS".toList then if ts = [] then some [commandEvent .clearStatus []] else none
    else if m = ".word".toList then
      match ts with
      | [.name cs] => (wordValue cs).map fun w => [.command w (packBytes 64 [])]
      | _ => none
    else if m = "ABSORB".toList then
      match ts with
      | [.text bs] => some (absorbEvents bs)
      | _ => none
    else if m = "HASH".toList then
      match ts with
      | [.text bs] => some (hashEvents bs)
      | _ => none
    else if m = "ROUNDTRIP".toList then
      (dinOfLength Config.digestBytes ts).map roundtripEvents
    else none
  | .comma :: _ | .equals :: _ | .text _ :: _ => none

/-- R81, R82: the events of one line, none where the line is not in the syntax. -/
def assembleLine (line : List Char) : Option (List HostEvent) :=
  match lexLine line.length line with
  | some ts => assembleTokens ts
  | none => none

end Sys2Proof.Machine
end

