-- ==== Sys2Proof/Machine/Engines.lean ====
section
/-!
DEFINITION. Machine/Engines.lean: several MD5CORE instances side by side (60_exceptions.md R229). They
have no signal between them (20_memory.md R64), so a step belongs to one of them.
-/
namespace Sys2Proof.Machine

/-- The instances of a system, one state each, and the number of unspecified bytes all of them have
drawn so far. That one counter is the model's own and no signal between instances: it numbers the
draws of the whole system apart, so no draw of one instance is a draw of another
(92_eei_decisions.md D25, log entry 4). -/
structure Engines where
  states : List State
  draws : Nat
  deriving DecidableEq, Repr

/-- R229: "Each instance starts in the reset state". `n` instances, none of which has drawn. -/
def resetEngines (n : Nat) : Engines := { states := List.replicate n State.reset, draws := 0 }

/-- Instance `k` takes one step, its draws numbered from the system's counter; a number that names no
instance changes nothing. -/
def stepEngine (k : Nat) (es : Engines) : Host.Outcome Engines Fault Refusal :=
  match es.states[k]? with
  | none => .next es
  | some s =>
    match step { s with draws := es.draws } with
    | .next t => .next { states := es.states.set k t, draws := t.draws }
    | .fault r => .fault r
    | .refused r => .refused r

end Sys2Proof.Machine
end

