-- ==== Sys2Proof/Safety.lean ====
section
/-!
DEFINITION. Safety.lean: the terms claims are stated in: the invariant of 10_state.md R34, the engine
state of 20_memory.md R60, what a state owes to the message absorbed so far, the digest of a whole
message (00_scope.md R12, 40_stream_and_finish.md R120), and the fixed-register form of R145 and R157.
-/
namespace Sys2Proof.Machine

/-- CNT = CNT_HI * 2^32 + CNT_LO (10_state.md R25). -/
def cnt (s : State) : Nat := s.cntHi.toNat * 2 ^ 32 + s.cntLo.toNat

/-- The elements whose reset value the spec states, at those values (70_reset_and_hazards.md R250).
BUF, DIGEST and HEXBUF are unspecified there and not named here. -/
structure AtResetValues (s : State) : Prop where
  a : s.acc.a = 0x67452301#32
  b : s.acc.b = 0xEFCDAB89#32
  c : s.acc.c = 0x98BADCFE#32
  d : s.acc.d = 0x10325476#32
  left : s.left = 0#7
  cntLo : s.cntLo = 0#32
  cntHi : s.cntHi = 0#32
  finished : s.finished = false
  errFinished : s.errFinished = false
  errNotFinished : s.errNotFinished = false
  errBadHex : s.errBadHex = false
  errIllegal : s.errIllegal = false

/-- The invariant at a command boundary (R34): LEFT is at most 63; CNT is a multiple of 64 while the
engine is not finished (item 2) and LEFT more than one after; a finished engine's DIGEST is its
accumulator words and HEXBUF their hex form (item 3); a response has at most 33 bytes (00_scope.md R9). -/
structure Invariant (s : State) : Prop where
  left_le : s.left.toNat ≤ 63
  cnt_open : s.finished = false → cnt s % 64 = 0
  cnt_finished : s.finished = true → cnt s % 64 = s.left.toNat
  digest_eq : s.finished = true → s.digest.toList = digestBytes s.acc
  hexbuf_eq : s.finished = true → s.hexbuf.toList = hexEncode s.digest.toList 33
  resp_le : s.resp.length ≤ Config.respMax

/-- Engine state (20_memory.md R60): every element of 10_state.md R20 other than the error flags. -/
structure SameEngine (s t : State) : Prop where
  acc : t.acc = s.acc
  buf : t.buf = s.buf
  left : t.left = s.left
  cntLo : t.cntLo = s.cntLo
  cntHi : t.cntHi = s.cntHi
  finished : t.finished = s.finished
  digest : t.digest = s.digest
  hexbuf : t.hexbuf = s.hexbuf

/-- The four error flags agree. -/
structure SameFlags (s t : State) : Prop where
  errFinished : t.errFinished = s.errFinished
  errNotFinished : t.errNotFinished = s.errNotFinished
  errBadHex : t.errBadHex = s.errBadHex
  errIllegal : t.errIllegal = s.errIllegal

/-- The lanes and the host's pending events agree: what no command writes. -/
structure SamePort (s t : State) : Prop where
  din : t.din = s.din
  host : t.host = s.host

/-- Two states that differ at most in the stale bytes BUF[LEFT..64) (10_state.md R33). -/
structure AgreeButStale (s t : State) : Prop where
  rest : t = { s with buf := t.buf }
  live : ∀ j, (h : j < 64) → j < s.left.toNat → t.buf[j] = s.buf[j]

/-- Block j of a byte sequence. -/
def blockAt (data : List Byte) (j : Nat) : List Byte :=
  (data.drop (Config.blockBytes * j)).take Config.blockBytes

/-- The words after the first `k` blocks of 64 bytes of `data` are compressed in order, from `w`. -/
def foldBlocks (k : Nat) (data : List Byte) (w : Words) : Words :=
  (List.range k).foldl (fun w j => compressWords w (blockAt data j)) w

/-- Padding of a message of n bytes (00_scope.md R12): the marker, zero bytes up to 56 mod 64, and the
low 64 bits of the bit length, low word first (20_memory.md R55). -/
def md5Padding (n : Nat) : List Byte :=
  [0x80#8] ++ zeros ((119 - n % 64) % 64)
    ++ bytesLe32 (BitVec.ofNat 32 (8 * n)) ++ bytesLe32 (BitVec.ofNat 32 (8 * n / 2 ^ 32))

/-- The digest of a whole message, with no streaming: its padded form cut into blocks, each
compressed from IV on (40_stream_and_finish.md R120). -/
def md5 (m : List Byte) : List Byte :=
  let padded := m ++ md5Padding m.length
  digestBytes (foldBlocks (padded.length / Config.blockBytes) padded iv)

/-- The state an engine is in after absorbing exactly the message `m` since INIT or reset
(10_state.md R23 and R34 item 2, 40_stream_and_finish.md R103). -/
structure Represents (m : List Byte) (s : State) : Prop where
  finished : s.finished = false
  acc : s.acc = foldBlocks (m.length / 64) m iv
  cnt : cnt s = 64 * (m.length / 64) % 2 ^ 64
  left : s.left.toNat = m.length % 64
  buf : s.buf.toList.take (m.length % 64) = m.drop (64 * (m.length / 64))

/-- 40_stream_and_finish.md R105: Absorb(b), the byte-serial form. -/
def absorbByte (b : Byte) (s : State) : State :=
  let s1 := { s with buf := writeBytes s.buf s.left.toNat [b], left := s.left + 1#7 }
  if s1.left = 64#7 then { compress s1.buf.toList s1 with left := 0#7 } else s1

/-- One step in RFC 1321's fixed-register form, [abcd], [dabc], [cdab] or [bcda] by i mod 4
(41_compression.md R145, R157): only the first register of the order is written. -/
def rfcStep (m : List Word) (i : Nat) (w : Words) : Words :=
  let mix (a b c d : Word) : Word :=
    b + rotl32 (a + auxFn i b c d + m.getD (msgIndex i) 0#32 + addConst i) (shiftAmount i)
  if i % 4 = 0 then { w with a := mix w.a w.b w.c w.d }
  else if i % 4 = 1 then { w with d := mix w.d w.a w.b w.c }
  else if i % 4 = 2 then { w with c := mix w.c w.d w.a w.b }
  else { w with b := mix w.b w.c w.d w.a }

/-- Steps 0 to n - 1 in the fixed-register form. -/
def rfcSteps (m : List Word) (n : Nat) (w : Words) : Words :=
  (List.range n).foldl (fun w i => rfcStep m i w) w

/-- The ASCII code of a lowercase hexadecimal digit: 0x30 on for 0 to 9, 0x61 on for a to f
(42_hex_codec.md R180). -/
def asciiDigit (v : Nat) : Byte :=
  if v < 10 then BitVec.ofNat 8 (0x30 + v) else BitVec.ofNat 8 (0x61 + (v - 10))

/-- An event that starts no new computation: a command word other than INIT's. -/
def keepsDigest : HostEvent → Bool
  | .command cmd _ => decide (cmd ≠ 0x10000000#32)
  | .reset => false

end Sys2Proof.Machine
end

