-- ==== Sys2Proof/Certificates/Slice0/Obligations.lean ====
section
/-!
DEFINITION. Certificates/Slice0/Obligations.lean: the statements for the provers. Each docstring names
the rule of spec/ or the sections the statement rests on. A statement that gives the whole next state
as `{ s with … }` is the frame of its command too: every field not named is unchanged.
-/
open Sys2Proof Sys2Proof.Machine

/-! ### Reset and the invariant -/

/-- R250: the reset state, the state the reset input leaves and the state INIT leaves hold the values
the rule's table states. BUF, DIGEST and HEXBUF are unspecified there. -/
def Obligations.ResetAndInitGiveTheStatedValues : Prop :=
  AtResetValues State.reset
    ∧ (∀ s rest, s.host = .reset :: rest → ∃ t, step s = .next t ∧ AtResetValues t)
    ∧ (∀ s, ∃ t, exec .init s = .next t ∧ AtResetValues t)

/-- 10_state.md section 9 (R34, which the spec marks derived) and, for the bound on a response,
00_scope.md section 4 (R9): the invariant holds after reset. That the response is empty there, on which
its bound rests, is the model's choice (log entry 5). -/
def Obligations.ResetMeetsTheInvariant : Prop := Invariant State.reset

/-- 10_state.md section 9 (R34, which the spec marks derived): every step, whatever the host's next
event is, keeps the invariant. -/
def Obligations.EveryStepKeepsTheInvariant : Prop :=
  ∀ s t, Invariant s → step s = .next t → Invariant t

/-! ### Encoding -/

/-- R70, R72 to R76, R81: no bit of an encoding is dropped. -/
def Obligations.DecodeOfEncodeIsTheCommand : Prop :=
  ∀ i : Instr, i.wellFormed = true → decode (encode i) = .ok i

/-- R80: a word that decodes is the encoding of what it decodes to, so each legal word has one meaning. -/
def Obligations.EncodeOfDecodeIsTheWord : Prop :=
  ∀ w i, decode w = .ok i → encode i = w ∧ i.wellFormed = true

/-- R77: Legal(CMD), written out over the numbers the fields hold; the words it admits are those that
decode. -/
def Obligations.LegalWordsAreThoseThatDecode : Prop :=
  ∀ w : Word,
    (legal w = true ↔ ∃ i, decode w = .ok i) ∧
    (legal w = true ↔
      (cmdRsv w).toNat = 0 ∧
        (((cmdOp w).toNat ∈ [0, 1, 4, 5, 7, 8, 9] ∧ (cmdArg w).toNat = 0)
          ∨ ((cmdOp w).toNat = 2 ∧ (cmdArg w).toNat ≤ 64)
          ∨ ((cmdOp w).toNat = 3 ∧ (cmdArg w).toNat ≤ 1)
          ∨ ((cmdOp w).toNat = 6 ∧ (cmdArg w).toNat ≤ 63)))

/-- R78, R204: an illegal word sets ERR_ILLEGAL, changes nothing else and has an empty response. The
transaction's lanes are in `din` (the model's choice, log entry 5). -/
def Obligations.IllegalWordsOnlySetErrIllegal : Prop :=
  ∀ w din s, legal w = false →
    transact w din s = .next { s with din := din, errIllegal := true, resp := [] }

/-- 30_encoding.md section 5: words of every family, written out from the spec's table. -/
def Obligations.SampleWordsDecodeAsTheTableSays : Prop :=
  decode 0x00000000#32 = .ok .nop ∧ decode 0x10000000#32 = .ok .init
    ∧ decode 0x20000040#32 = .ok (.process 64#7) ∧ decode 0x2000002B#32 = .ok (.process 43#7)
    ∧ decode 0x30000000#32 = .ok (.finish false) ∧ decode 0x30000001#32 = .ok (.finish true)
    ∧ decode 0x40000000#32 = .ok .getDigest ∧ decode 0x50000000#32 = .ok .getHex
    ∧ decode 0x60000021#32 = .ok (.hexEncode 33#6) ∧ decode 0x70000000#32 = .ok .hexDecode
    ∧ decode 0x80000000#32 = .ok .readStatus ∧ decode 0x90000000#32 = .ok .clearStatus

/-! ### The step -/

/-- 00_scope.md section 4 (R9) and 70_reset_and_hazards.md section 3 (R255): a pending transaction
whose word decodes to i is exec of i on its lanes, and the reset input is `resetInput`, each event taken
off the host's list (that list is the model's choice, log entry 1); a word placed by `withFetchWord` is
exec of i on the state itself. An instance of a system steps as a block alone does, its draws numbered
from the system's counter, which never goes back (log entry 4). -/
def Obligations.StepRunsTheDecodedCommand : Prop :=
  (∀ s w din rest i, s.host = .command w din :: rest → decode w = .ok i →
      step s = exec i { s with host := rest, din := din }) ∧
  (∀ s rest, s.host = .reset :: rest → step s = .next (resetInput { s with host := rest })) ∧
  (∀ s nbits w i, decodeTableWord nbits w = some i → step (s.withFetchWord nbits w) = exec i s) ∧
  (∀ k es s, es.states[k]? = some s → ∃ t, step { s with draws := es.draws } = .next t
      ∧ stepEngine k es = .next { states := es.states.set k t, draws := t.draws }
      ∧ es.draws ≤ t.draws)

/-- The model's choice, log entry 1, for the wait of 70_reset_and_hazards.md section 3: with no event
pending a step changes nothing. -/
def Obligations.StepWaitsWithoutAnEvent : Prop :=
  ∀ s, s.host = [] → step s = .next s

/-- R220: every command word, legal or not, in every state, completes in one step with a next state
and a response, of at most 33 bytes (00_scope.md R9); and every step has a next state (an idle one is
the model's choice, log entry 1). -/
def Obligations.EveryCommandCompletes : Prop :=
  (∀ w din s, ∃ t, transact w din s = .next t ∧ t.resp.length ≤ 33) ∧ (∀ s, ∃ t, step s = .next t)

/-- 60_exceptions.md section 2 (R222, which the spec marks derived): of the four flags a command sets
at most one anew. -/
def Obligations.OneCausePerCommand : Prop :=
  ∀ w din s t, transact w din s = .next t →
    ∀ f g, errFlag f s = false → errFlag f t = true → errFlag g s = false → errFlag g t = true → f = g

/-- R31: set_err sets its flag and leaves every other bit; and a flag that is set stays set over every
command word but those of CLEAR_STATUS and INIT. -/
def Obligations.FlagsAreSticky : Prop :=
  (∀ f s, errFlag f (setErr f s) = true
      ∧ (∀ g, g ≠ f → errFlag g (setErr f s) = errFlag g s)
      ∧ SameEngine s (setErr f s) ∧ SamePort s (setErr f s)) ∧
  (∀ f w din s t, transact w din s = .next t → errFlag f s = true →
      w ≠ 0x10000000#32 → w ≠ 0x90000000#32 → errFlag f t = true)

/-! ### Control commands -/

/-- R200. -/
def Obligations.NopChangesNothing : Prop :=
  ∀ s, exec .nop s = .next { s with resp := [] }

/-- R201: INIT completes in every state, at the values its pseudocode writes, with an empty response.
BUF, DIGEST and HEXBUF become unspecified. The port fields are the model's (log entries 1, 5). -/
def Obligations.InitStartsANewComputation : Prop :=
  ∀ s, ∃ t, exec .init s = .next t ∧ AtResetValues t ∧ t.resp = [] ∧ SamePort s t

/-- R30, R202: READ_STATUS answers the one byte whose bits are those of R30, and changes nothing. -/
def Obligations.ReadStatusAnswersTheStatusByte : Prop :=
  ∀ s, exec .readStatus s = .next { s with resp := [statusByte s] }
    ∧ (statusByte s).getLsbD 0 = s.finished ∧ (statusByte s).getLsbD 1 = s.errFinished
    ∧ (statusByte s).getLsbD 2 = s.errNotFinished ∧ (statusByte s).getLsbD 3 = s.errBadHex
    ∧ (statusByte s).getLsbD 4 = s.errIllegal
    ∧ ∀ k, 5 ≤ k → (statusByte s).getLsbD k = false

/-- R203. -/
def Obligations.ClearStatusClearsTheFourFlags : Prop :=
  ∀ s, exec .clearStatus s = .next { s with
    errFinished := false, errNotFinished := false, errBadHex := false, errIllegal := false, resp := [] }

/-! ### PROCESS and the streaming buffer -/

/-- R106: PROCESS with a legal count absorbs DIN[0..N), or sets ERR_FINISHED alone. -/
def Obligations.ProcessAbsorbsOrSetsErrFinished : Prop :=
  ∀ n s, n.toNat ≤ 64 →
    (s.finished = false →
      exec (.process n) s = .next (respond [] (processChunk (s.din.toList.take n.toNat) s))) ∧
    (s.finished = true → exec (.process n) s = .next { s with errFinished := true, resp := [] })

/-- 40_stream_and_finish.md sections 1 and 2 (R100, R106): a chunk that does not fill the buffer is
appended at BUF[LEFT]; nothing else changes. -/
def Obligations.ProcessAppendsAShortChunk : Prop :=
  ∀ n s, s.finished = false → s.left.toNat + n.toNat < 64 →
    ∃ t, exec (.process n) s = .next t
      ∧ t = { s with buf := t.buf, left := t.left, resp := [] }
      ∧ t.left.toNat = s.left.toNat + n.toNat
      ∧ ∀ j, (h : j < 64) → t.buf[j] =
          if s.left.toNat ≤ j ∧ j < s.left.toNat + n.toNat then s.din[j - s.left.toNat] else s.buf[j]

/-- 40_stream_and_finish.md sections 1 and 2 (R100 phases 1 and 3, R106): a chunk that fills a partial
block compresses the leftover bytes followed by the first 64 - LEFT lanes, once, and keeps the rest. -/
def Obligations.ProcessCompletesAPartialBlock : Prop :=
  ∀ n s, s.finished = false → n.toNat ≤ 64 → 0 < s.left.toNat → s.left.toNat ≤ 63 →
    64 ≤ s.left.toNat + n.toNat →
    ∃ t, exec (.process n) s = .next t
      ∧ t = { s with acc := t.acc, buf := t.buf, left := t.left, cntLo := t.cntLo, cntHi := t.cntHi,
                     resp := [] }
      ∧ t.acc = compressWords s.acc
          (s.buf.toList.take s.left.toNat ++ s.din.toList.take (64 - s.left.toNat))
      ∧ cnt t = (cnt s + 64) % 2 ^ 64
      ∧ t.left.toNat = s.left.toNat + n.toNat - 64
      ∧ ∀ j, j < s.left.toNat + n.toNat - 64 → t.buf[j]? = s.din[64 - s.left.toNat + j]?

/-- 40_stream_and_finish.md sections 1 and 2 (R100 phase 2, R106): a whole block with an empty buffer is
compressed straight from the lanes, BUF untouched. -/
def Obligations.ProcessCompressesAWholeBlock : Prop :=
  ∀ s, s.finished = false → s.left = 0#7 →
    ∃ t, exec (.process 64#7) s = .next t
      ∧ t = { s with acc := compressWords s.acc s.din.toList, cntLo := t.cntLo, cntHi := t.cntHi,
                     resp := [] }
      ∧ cnt t = (cnt s + 64) % 2 ^ 64

/-- 40_stream_and_finish.md section 1 (R101, R102, which the spec marks derived): LEFT afterwards, and the
number of compressions as CNT shows it. -/
def Obligations.ProcessChunkCountsItsBlocks : Prop :=
  ∀ data s, s.left.toNat ≤ 63 →
    (processChunk data s).left.toNat = (s.left.toNat + data.length) % 64
      ∧ cnt (processChunk data s) = (cnt s + 64 * ((s.left.toNat + data.length) / 64)) % 2 ^ 64

/-- 40_stream_and_finish.md section 1 (R104, which the spec marks derived): absorbing x then y leaves the
state of absorbing x ++ y, stale bytes apart. -/
def Obligations.ChunkBoundariesDoNotMatter : Prop :=
  ∀ x y s, s.left.toNat ≤ 63 →
    AgreeButStale (processChunk y (processChunk x s)) (processChunk (x ++ y) s)

/-- 40_stream_and_finish.md section 1 (R105, which the spec marks derived): ProcessChunk is the byte-serial
Absorb of its bytes in order, stale bytes apart. -/
def Obligations.ProcessChunkIsByteSerialAbsorb : Prop :=
  ∀ data s, s.left.toNat ≤ 63 →
    AgreeButStale (data.foldl (fun u b => absorbByte b u) s) (processChunk data s)

/-! ### FINISH -/

/-- R116. -/
def Obligations.FinishWhenFinishedOnlySetsErrFinished : Prop :=
  ∀ copy s, s.finished = true →
    exec (.finish copy) s = .next { s with errFinished := true, resp := [] }

/-- R113, R114, R115: FINISH of an open engine, in every state, leaves DIGEST the little-endian words,
HEXBUF its hex form with the terminator, FINISHED set, and LEFT and BUF as they were. -/
def Obligations.FinishWritesDigestHexAndFinished : Prop :=
  ∀ copy s, s.finished = false →
    ∃ t, exec (.finish copy) s = .next t
      ∧ t.digest.toList = bytesLe32 t.acc.a ++ bytesLe32 t.acc.b ++ bytesLe32 t.acc.c ++ bytesLe32 t.acc.d
      ∧ t.hexbuf.toList = hexEncode t.digest.toList 33
      ∧ t.finished = true ∧ t.left = s.left ∧ t.buf = s.buf
      ∧ t.resp = (if copy then t.digest.toList else [])
      ∧ SameFlags s t ∧ SamePort s t

/-- 40_stream_and_finish.md section 3 (R107 to R115), LEFT at most 55: one padding block, made of the
leftover bytes, 0x80, zeros and the low 64 bits of eight times the message length, low word first. -/
def Obligations.FinishPadsOneBlock : Prop :=
  ∀ copy s, s.finished = false → s.left.toNat ≤ 55 →
    ∃ t, exec (.finish copy) s = .next t
      ∧ t = { s with acc := t.acc, cntLo := t.cntLo, cntHi := t.cntHi, digest := t.digest,
                     hexbuf := t.hexbuf, finished := true, resp := t.resp }
      ∧ t.acc = compressWords s.acc
          (s.buf.toList.take s.left.toNat ++ [0x80#8] ++ zeros (55 - s.left.toNat)
            ++ bytesLe32 (BitVec.ofNat 32 (8 * (cnt s + s.left.toNat)))
            ++ bytesLe32 (BitVec.ofNat 32 (8 * (cnt s + s.left.toNat) / 2 ^ 32)))
      ∧ cnt t = (cnt s + s.left.toNat + 64) % 2 ^ 64

/-- 40_stream_and_finish.md section 3 (R107 to R115), LEFT from 56 to 63: two padding blocks, the second
56 zero bytes and the length. -/
def Obligations.FinishPadsTwoBlocks : Prop :=
  ∀ copy s, s.finished = false → 56 ≤ s.left.toNat → s.left.toNat ≤ 63 →
    ∃ t, exec (.finish copy) s = .next t
      ∧ t = { s with acc := t.acc, cntLo := t.cntLo, cntHi := t.cntHi, digest := t.digest,
                     hexbuf := t.hexbuf, finished := true, resp := t.resp }
      ∧ t.acc = compressWords
          (compressWords s.acc
            (s.buf.toList.take s.left.toNat ++ [0x80#8] ++ zeros (63 - s.left.toNat)))
          (zeros 56
            ++ bytesLe32 (BitVec.ofNat 32 (8 * (cnt s + s.left.toNat)))
            ++ bytesLe32 (BitVec.ofNat 32 (8 * (cnt s + s.left.toNat) / 2 ^ 32)))
      ∧ cnt t = (cnt s + s.left.toNat + 128) % 2 ^ 64

/-- 40_stream_and_finish.md section 3 (R110, R111, which the spec marks derived): LEFT and the padding
make 56 or 120, and the tail is 64 or 128 bytes. -/
def Obligations.PaddingMakesOneOrTwoBlocks : Prop :=
  ∀ s, s.left.toNat ≤ 63 →
    s.left.toNat + padAmount s.left.toNat = (if s.left.toNat ≤ 55 then 56 else 120)
      ∧ (paddedTail s).length = (if s.left.toNat ≤ 55 then 64 else 128)

/-- 40_stream_and_finish.md section 3 (R109, which the spec marks derived): the two length words are
eight times the byte count, modulo 2^64. -/
def Obligations.BitLengthIsEightTimesTheByteCount : Prop :=
  ∀ hi lo : Word,
    (bitsHi hi lo).toNat * 2 ^ 32 + (bitsLo lo).toNat = 8 * (hi.toNat * 2 ^ 32 + lo.toNat) % 2 ^ 64

/-! ### The digest queries -/

/-- R117: GET_DIGEST answers DIGEST, or before FINISH sixteen unspecified bytes with ERR_NOT_FINISHED;
which bytes, and how many the model has drawn, is left open. -/
def Obligations.GetDigestAnswersDigestOrSetsErrNotFinished : Prop :=
  ∀ s, (s.finished = true → exec .getDigest s = .next { s with resp := s.digest.toList }) ∧
    (s.finished = false → ∃ r k, r.length = 16 ∧
      exec .getDigest s = .next { s with errNotFinished := true, resp := r, draws := k })

/-- R118: GET_HEX answers HEXBUF, whose last byte is the terminator in every state that meets the
invariant, or before FINISH 33 unspecified bytes with ERR_NOT_FINISHED. -/
def Obligations.GetHexAnswersHexbufOrSetsErrNotFinished : Prop :=
  ∀ s, (s.finished = true → exec .getHex s = .next { s with resp := s.hexbuf.toList }) ∧
    (s.finished = true → Invariant s → s.hexbuf[32] = 0x00#8) ∧
    (s.finished = false → ∃ r k, r.length = 33 ∧
      exec .getHex s = .next { s with errNotFinished := true, resp := r, draws := k })

/-- 40_stream_and_finish.md section 4 (R119, which the spec marks derived): while finished, a query
answers the same after any other query as before it. -/
def Obligations.QueriesAreIdempotent : Prop :=
  ∀ i j s t, s.finished = true →
    i ∈ [Instr.getDigest, Instr.getHex, Instr.readStatus] →
    j ∈ [Instr.getDigest, Instr.getHex, Instr.readStatus] →
    exec j s = .next t → exec i t = exec i s

/-! ### The hex codec -/

/-- R180, R181: HexEncode of 16 bytes has min(cap, 33) bytes: the characters of the nibbles, high first,
as far as cap goes, and the terminator from cap = 33 on. -/
def Obligations.HexEncodeGivesTheNibbleCharacters : Prop :=
  ∀ (d : List Byte) (cap : Nat), d.length = 16 →
    (hexEncode d cap).length = min cap 33
      ∧ (∀ k, k < 16 → 2 * k < cap → (hexEncode d cap)[2 * k]? = d[k]?.map fun b => asciiDigit (b.toNat / 16))
      ∧ (∀ k, k < 16 → 2 * k + 1 < cap →
          (hexEncode d cap)[2 * k + 1]? = d[k]?.map fun b => asciiDigit (b.toNat % 16))
      ∧ (33 ≤ cap → (hexEncode d cap)[32]? = some 0x00#8)

/-- R182: HEX_ENCODE answers HexEncode of the sixteen low lanes and changes nothing. -/
def Obligations.HexEncodeCommandAnswersTheEncoding : Prop :=
  ∀ cap s, exec (.hexEncode cap) s =
    .next { s with resp := hexEncode (s.din.toList.take 16) cap.toNat }

/-- R183: HexVal on each of the 256 bytes. -/
def Obligations.HexValAcceptsOnlyTheAlphabet : Prop :=
  ∀ c : Byte,
    (0x30 ≤ c.toNat → c.toNat ≤ 0x39 → hexVal c = some (BitVec.ofNat 4 (c.toNat - 0x30)))
      ∧ (0x61 ≤ c.toNat → c.toNat ≤ 0x66 → hexVal c = some (BitVec.ofNat 4 (c.toNat - 0x61 + 10)))
      ∧ ((c.toNat < 0x30 ∨ 0x39 < c.toNat) → (c.toNat < 0x61 ∨ 0x66 < c.toNat) → hexVal c = none)

/-- R184, R185: with 32 valid characters HEX_DECODE answers the sixteen bytes they spell, high nibble
first, and changes nothing; with an invalid one it answers sixteen unspecified bytes and sets
ERR_BAD_HEX. -/
def Obligations.HexDecodeAnswersTheBytesOrSetsErrBadHex : Prop :=
  ∀ s : State,
    ((∀ j, (h : j < 32) → hexVal s.din[j] ≠ none) → ∃ out, out.length = 16
      ∧ exec .hexDecode s = .next { s with resp := out }
      ∧ ∀ k, (h : k < 16) → ∀ hi lo, hexVal s.din[2 * k] = some hi → hexVal s.din[2 * k + 1] = some lo →
          out[k]? = some (BitVec.ofNat 8 (16 * hi.toNat + lo.toNat))) ∧
    ((∃ j, ∃ h : j < 32, hexVal s.din[j] = none) → ∃ r k, r.length = 16 ∧
      exec .hexDecode s = .next { s with errBadHex := true, resp := r, draws := k })

/-- 42_hex_codec.md section 4 (R186, which the spec marks derived). -/
def Obligations.DecodeOfEncodedDigestIsTheDigest : Prop :=
  ∀ d : List Byte, d.length = 16 → hexDecode (hexEncode d 32) = some d

/-- 42_hex_codec.md section 4 (R186, which the spec marks derived). -/
def Obligations.EncodeOfDecodedTextIsTheText : Prop :=
  ∀ h out : List Byte, h.length = 32 → hexDecode h = some out → hexEncode out 32 = h

/-- 42_hex_codec.md section 4 (R187, which the spec marks derived): the codec commands leave the engine
alone, and what they answer to valid input depends on the lanes only. -/
def Obligations.CodecCommandsAreStateless : Prop :=
  ∀ i s u t v, (i = .hexDecode ∨ ∃ cap, i = .hexEncode cap) → s.din = u.din →
    exec i s = .next t → exec i u = .next v →
    SameEngine s t
      ∧ ((i = .hexDecode → hexDecode (s.din.toList.take 32) ≠ none) → t.resp = v.resp ∧ SameFlags s t)

/-! ### Compression and the length accumulator -/

/-- R153: the rotation is a bit permutation, and the step table asks only for its sixteen amounts. -/
def Obligations.RotationMovesBitJToJPlusS : Prop :=
  (∀ x s, 1 ≤ s → s ≤ 31 → rotl32 x s = x <<< s ||| x >>> (32 - s)
      ∧ ∀ j, j < 32 → (rotl32 x s).getLsbD ((j + s) % 32) = x.getLsbD j) ∧
  (∀ i, i < 64 → shiftAmount i ∈ [7, 12, 17, 22, 5, 9, 14, 20, 4, 11, 16, 23, 6, 10, 15, 21])

/-- R146, R147: the four functions bit by bit, and which steps use which. -/
def Obligations.AuxiliaryFunctionsOfTheFourGroups : Prop :=
  ∀ (x y z : Word) (i j : Nat), j < 32 →
    (i < 16 → (auxFn i x y z).getLsbD j = ((x.getLsbD j && y.getLsbD j) || (!x.getLsbD j && z.getLsbD j)))
    ∧ (16 ≤ i → i < 32 →
        (auxFn i x y z).getLsbD j = ((x.getLsbD j && z.getLsbD j) || (y.getLsbD j && !z.getLsbD j)))
    ∧ (32 ≤ i → i < 48 → (auxFn i x y z).getLsbD j = (x.getLsbD j ^^ y.getLsbD j ^^ z.getLsbD j))
    ∧ (48 ≤ i → i < 64 → (auxFn i x y z).getLsbD j = (y.getLsbD j ^^ (x.getLsbD j || !z.getLsbD j)))

/-- R148: the message index of each step, and that each group uses every word exactly once. -/
def Obligations.EachGroupUsesEveryMessageWordOnce : Prop :=
  (∀ i, i < 64 → msgIndex i =
      if i < 16 then i else if i < 32 then (5 * i + 1) % 16
      else if i < 48 then (3 * i + 5) % 16 else 7 * i % 16) ∧
  (∀ g, g < 4 → ∀ j, j < 16 →
      ((List.range 64).filter fun i => i / 16 = g ∧ msgIndex i = j).length = 1)

/-- R149: the shift table, and its range. -/
def Obligations.ShiftAmountsFollowTheTable : Prop :=
  ∀ i, i < 64 →
    shiftAmount i = ([[7, 12, 17, 22], [5, 9, 14, 20], [4, 11, 16, 23], [6, 10, 15, 21]].getD (i / 16) []).getD (i % 4) 0
      ∧ 4 ≤ shiftAmount i ∧ shiftAmount i ≤ 23

/-- R53, R142: message word j is bytes 4j to 4j+3 of the block, the first the least significant. -/
def Obligations.MessageWordsAreLittleEndian : Prop :=
  ∀ (blk : List Byte) (j : Nat), blk.length = 64 → j < 16 →
    ((messageWords blk).getD j 0#32).toNat =
      (byteAt blk (4 * j)).toNat + 2 ^ 8 * (byteAt blk (4 * j + 1)).toNat
        + 2 ^ 16 * (byteAt blk (4 * j + 2)).toNat + 2 ^ 24 * (byteAt blk (4 * j + 3)).toNat

/-- R144: the step's new word adds a before the rotation (90_conflicts.md C3). -/
def Obligations.RoundStepMakesOneNewWord : Prop :=
  ∀ m i (w : Words), i < 64 →
    roundStep m i w =
      { a := w.d
        b := w.b + rotl32 (w.a + auxFn i w.b w.c w.d + addConst i + m.getD (msgIndex i) 0#32) (shiftAmount i)
        c := w.b, d := w.c }

/-- 41_compression.md section 2 (R145, R157): sixty-four steps in the fixed-register form, which write
register [abcd], [dabc], [cdab] or [bcda] in turn, give the words of the rotating form. -/
def Obligations.FixedRegisterFormAgrees : Prop :=
  ∀ m w, rfcSteps m 64 w = roundSteps m 64 w

/-- R151: the feed-forward, and that nothing but A to D and CNT is written (R140). -/
def Obligations.CompressFeedsForward : Prop :=
  ∀ blk s,
    let r := roundSteps (messageWords blk) 64 s.acc
    let t := compress blk s
    t.acc = { a := s.acc.a + r.a, b := s.acc.b + r.b, c := s.acc.c + r.c, d := s.acc.d + r.d }
      ∧ t = { s with acc := t.acc, cntLo := t.cntLo, cntHi := t.cntHi }

/-- 41_compression.md section 4 (R152; the modulus is marked derived there): CntAdd, and with it the
per-block update of Compress (R141), is addition modulo 2^64, and writes the two halves only. -/
def Obligations.LengthAccumulatorAddsModulo2To64 : Prop :=
  (∀ n s, n ≤ 64 → cnt (cntAdd n s) = (cnt s + n) % 2 ^ 64
      ∧ cntAdd n s = { s with cntLo := (cntAdd n s).cntLo, cntHi := (cntAdd n s).cntHi }) ∧
  (∀ blk s, cnt (compress blk s) = (cnt s + 64) % 2 ^ 64)

/-! ### Whole messages -/

/-- 10_state.md section 9 and 40_stream_and_finish.md section 1 (R34 item 2, R103, marked derived there):
after INIT the engine holds the empty message, and PROCESS appends its chunk to the message held. -/
def Obligations.ProcessExtendsTheMessage : Prop :=
  (∀ s, ∃ t, exec .init s = .next t ∧ Represents [] t) ∧
  (∀ m n s, Represents m s → n.toNat ≤ 64 →
    ∃ t, exec (.process n) s = .next t ∧ Represents (m ++ s.din.toList.take n.toNat) t)

/-- 40_stream_and_finish.md sections 3 and 4 (R107 to R115, R120): FINISH of an engine that holds the
message m writes the digest of m, defined on the whole padded message. -/
def Obligations.FinishGivesTheDigestOfTheMessage : Prop :=
  ∀ m copy s, Represents m s →
    ∃ t, exec (.finish copy) s = .next t ∧ t.digest.toList = md5 m
      ∧ t.hexbuf.toList = hexEncode (md5 m) 33 ∧ t.resp = (if copy then md5 m else [])

/-- 40_stream_and_finish.md section 4 (R120, which the spec marks derived): from any state, INIT, then
PROCESS commands of chunks of at most 64 bytes, then FINISH, leaves the digest of the chunks'
concatenation, wherever the chunk boundaries fall. -/
def Obligations.CommandSequenceComputesTheDigest : Prop :=
  ∀ (chunks : List (List Byte)) copy rest s, (∀ c ∈ chunks, c.length ≤ 64) →
    s.host = commandEvent .init [] :: (chunks.map processEvent ++ commandEvent (.finish copy) [] :: rest) →
    ∃ t, Host.Core.run core (chunks.length + 2) s = .next t
      ∧ t.digest.toList = md5 chunks.flatten
      ∧ t.hexbuf.toList = hexEncode (md5 chunks.flatten) 33
      ∧ t.finished = true ∧ t.resp = (if copy then md5 chunks.flatten else []) ∧ t.host = rest

/-- 70_reset_and_hazards.md section 2 (R254, which the spec marks derived): a word that decodes to none
of INIT, PROCESS and FINISH, an illegal one among them, leaves the message held as it is. -/
def Obligations.OtherCommandsKeepTheMessage : Prop :=
  ∀ m w din s t, Represents m s →
    (∀ i, decode w = .ok i → i ≠ .init ∧ (∀ n, i ≠ .process n) ∧ ∀ copy, i ≠ .finish copy) →
    transact w din s = .next t → Represents m t

/-- R82: the chunks ABSORB makes of its operand s: as many as the table says, chunk j being
s[64j .. 64j+64), so 64 bytes each but the last; and together they spell s. -/
def Obligations.AbsorbChunksSpellTheOperand : Prop :=
  ∀ s : List Byte,
    (absorbChunks (s.length / 64) s).length = (s.length - 1) / 64 + 1
      ∧ (∀ j, j < (s.length - 1) / 64 + 1 →
          (absorbChunks (s.length / 64) s)[j]? = some ((s.drop (64 * j)).take 64))
      ∧ (absorbChunks (s.length / 64) s).flatten = s

/-! ### What no command can do or see -/

/-- R51: lanes a command does not read have no effect. Unspecified bytes are the same draws in both
runs (log entry 4). -/
def Obligations.UnreadLanesHaveNoEffect : Prop :=
  ∀ i s t (d : Vector Byte 64), (∀ j, (h : j < 64) → j < lanesRead i → d[j] = s.din[j]) →
    exec i s = .next t → exec i { s with din := d } = .next { t with din := d }

/-- 10_state.md section 8 (R33, which the spec marks derived): two states that differ in stale bytes of
BUF only run every command word to states that differ in stale bytes only, so with one response,
unspecified bytes being the same draws in both runs (log entry 4). -/
def Obligations.StaleBytesAreNeverRead : Prop :=
  ∀ w din s u s' u', s.left.toNat ≤ 63 → AgreeButStale s u →
    transact w din s = .next s' → transact w din u = .next u' → AgreeButStale s' u'

/-- 20_memory.md section 3 (R60): only PROCESS, FINISH and INIT change the engine. -/
def Obligations.OnlyThreeCommandsChangeTheEngine : Prop :=
  ∀ i s t, i ≠ .init → (∀ n, i ≠ .process n) → (∀ copy, i ≠ .finish copy) →
    exec i s = .next t → SameEngine s t

/-- 10_state.md section 9 (R34 item 4, which the spec marks derived): while finished, no command but INIT
changes the engine. -/
def Obligations.FinishedEngineIsFrozen : Prop :=
  ∀ i s t, i ≠ .init → s.finished = true → exec i s = .next t → SameEngine s t

/-- 70_reset_and_hazards.md section 2 (R258) and 10_state.md section 9: from a finished state, over any
number of steps whose events hold no INIT word and no reset, the engine, DIGEST and HEXBUF among it,
stays as it is. -/
def Obligations.DigestStaysUntilInitOrReset : Prop :=
  ∀ k s t, s.finished = true → (∀ e ∈ s.host.take k, keepsDigest e = true) →
    Host.Core.run core k s = .next t → SameEngine s t

/-- 20_memory.md section 4 (R64): a command to one instance never changes another; 60_exceptions.md
section 3 (R229): each starts in the reset state. That several instances are a list of States, each
State.reset at the start, is the model's choice (log entry 14), and so is what State.reset holds where
R250 states no value (log entries 1, 2, 4 and 5). -/
def Obligations.InstancesShareNoState : Prop :=
  (∀ k es es', stepEngine k es = .next es' →
      es'.states.length = es.states.length ∧ ∀ j, j ≠ k → es'.states[j]? = es.states[j]?) ∧
  (∀ n, (resetEngines n).states.length = n ∧ ∀ s ∈ (resetEngines n).states, s = State.reset)
end

