-- ==== Sys2Proof/Laws/State.lean ====
section
/-!
SUPPORT. Laws/State.lean: what each update of the state does to each field, one lemma a field, so that
no later proof unfolds a record update.
-/
namespace Sys2Proof.Machine

/-! ### respond -/

@[simp] theorem respond_acc (r : List Byte) (s : State) :
    (respond r s).acc = s.acc := rfl
@[simp] theorem respond_buf (r : List Byte) (s : State) :
    (respond r s).buf = s.buf := rfl
@[simp] theorem respond_left (r : List Byte) (s : State) :
    (respond r s).left = s.left := rfl
@[simp] theorem respond_cntLo (r : List Byte) (s : State) :
    (respond r s).cntLo = s.cntLo := rfl
@[simp] theorem respond_cntHi (r : List Byte) (s : State) :
    (respond r s).cntHi = s.cntHi := rfl
@[simp] theorem respond_finished (r : List Byte) (s : State) :
    (respond r s).finished = s.finished := rfl
@[simp] theorem respond_digest (r : List Byte) (s : State) :
    (respond r s).digest = s.digest := rfl
@[simp] theorem respond_hexbuf (r : List Byte) (s : State) :
    (respond r s).hexbuf = s.hexbuf := rfl
@[simp] theorem respond_errFinished (r : List Byte) (s : State) :
    (respond r s).errFinished = s.errFinished := rfl
@[simp] theorem respond_errNotFinished (r : List Byte) (s : State) :
    (respond r s).errNotFinished = s.errNotFinished := rfl
@[simp] theorem respond_errBadHex (r : List Byte) (s : State) :
    (respond r s).errBadHex = s.errBadHex := rfl
@[simp] theorem respond_errIllegal (r : List Byte) (s : State) :
    (respond r s).errIllegal = s.errIllegal := rfl
@[simp] theorem respond_din (r : List Byte) (s : State) :
    (respond r s).din = s.din := rfl
@[simp] theorem respond_resp (r : List Byte) (s : State) :
    (respond r s).resp = r := rfl
@[simp] theorem respond_host (r : List Byte) (s : State) :
    (respond r s).host = s.host := rfl
@[simp] theorem respond_draws (r : List Byte) (s : State) :
    (respond r s).draws = s.draws := rfl

/-! ### respondUnspec -/

@[simp] theorem respondUnspec_acc (n : Nat) (s : State) :
    (respondUnspec n s).acc = s.acc := rfl
@[simp] theorem respondUnspec_buf (n : Nat) (s : State) :
    (respondUnspec n s).buf = s.buf := rfl
@[simp] theorem respondUnspec_left (n : Nat) (s : State) :
    (respondUnspec n s).left = s.left := rfl
@[simp] theorem respondUnspec_cntLo (n : Nat) (s : State) :
    (respondUnspec n s).cntLo = s.cntLo := rfl
@[simp] theorem respondUnspec_cntHi (n : Nat) (s : State) :
    (respondUnspec n s).cntHi = s.cntHi := rfl
@[simp] theorem respondUnspec_finished (n : Nat) (s : State) :
    (respondUnspec n s).finished = s.finished := rfl
@[simp] theorem respondUnspec_digest (n : Nat) (s : State) :
    (respondUnspec n s).digest = s.digest := rfl
@[simp] theorem respondUnspec_hexbuf (n : Nat) (s : State) :
    (respondUnspec n s).hexbuf = s.hexbuf := rfl
@[simp] theorem respondUnspec_errFinished (n : Nat) (s : State) :
    (respondUnspec n s).errFinished = s.errFinished := rfl
@[simp] theorem respondUnspec_errNotFinished (n : Nat) (s : State) :
    (respondUnspec n s).errNotFinished = s.errNotFinished := rfl
@[simp] theorem respondUnspec_errBadHex (n : Nat) (s : State) :
    (respondUnspec n s).errBadHex = s.errBadHex := rfl
@[simp] theorem respondUnspec_errIllegal (n : Nat) (s : State) :
    (respondUnspec n s).errIllegal = s.errIllegal := rfl
@[simp] theorem respondUnspec_din (n : Nat) (s : State) :
    (respondUnspec n s).din = s.din := rfl
@[simp] theorem respondUnspec_resp (n : Nat) (s : State) :
    (respondUnspec n s).resp = unspecAt s.draws n := rfl
@[simp] theorem respondUnspec_host (n : Nat) (s : State) :
    (respondUnspec n s).host = s.host := rfl
@[simp] theorem respondUnspec_draws (n : Nat) (s : State) :
    (respondUnspec n s).draws = s.draws + n := rfl

/-! ### setErr -/

@[simp] theorem setErr_acc (f : ErrFlag) (s : State) : (setErr f s).acc = s.acc := by cases f <;> rfl
@[simp] theorem setErr_buf (f : ErrFlag) (s : State) : (setErr f s).buf = s.buf := by cases f <;> rfl
@[simp] theorem setErr_left (f : ErrFlag) (s : State) :
    (setErr f s).left = s.left := by cases f <;> rfl
@[simp] theorem setErr_cntLo (f : ErrFlag) (s : State) :
    (setErr f s).cntLo = s.cntLo := by cases f <;> rfl
@[simp] theorem setErr_cntHi (f : ErrFlag) (s : State) :
    (setErr f s).cntHi = s.cntHi := by cases f <;> rfl
@[simp] theorem setErr_finished (f : ErrFlag) (s : State) :
    (setErr f s).finished = s.finished := by cases f <;> rfl
@[simp] theorem setErr_digest (f : ErrFlag) (s : State) :
    (setErr f s).digest = s.digest := by cases f <;> rfl
@[simp] theorem setErr_hexbuf (f : ErrFlag) (s : State) :
    (setErr f s).hexbuf = s.hexbuf := by cases f <;> rfl
@[simp] theorem setErr_din (f : ErrFlag) (s : State) : (setErr f s).din = s.din := by cases f <;> rfl
@[simp] theorem setErr_resp (f : ErrFlag) (s : State) :
    (setErr f s).resp = s.resp := by cases f <;> rfl
@[simp] theorem setErr_host (f : ErrFlag) (s : State) :
    (setErr f s).host = s.host := by cases f <;> rfl
@[simp] theorem setErr_draws (f : ErrFlag) (s : State) :
    (setErr f s).draws = s.draws := by cases f <;> rfl

/-- R31: exactly the named flag is set. -/
@[simp] theorem errFlag_setErr (f g : ErrFlag) (s : State) :
    errFlag f (setErr g s) = (decide (f = g) || errFlag f s) := by
  cases f <;> cases g <;> rfl

/-! ### clearErrs -/

@[simp] theorem clearErrs_acc (s : State) : (clearErrs s).acc = s.acc := rfl
@[simp] theorem clearErrs_buf (s : State) : (clearErrs s).buf = s.buf := rfl
@[simp] theorem clearErrs_left (s : State) : (clearErrs s).left = s.left := rfl
@[simp] theorem clearErrs_cntLo (s : State) : (clearErrs s).cntLo = s.cntLo := rfl
@[simp] theorem clearErrs_cntHi (s : State) : (clearErrs s).cntHi = s.cntHi := rfl
@[simp] theorem clearErrs_finished (s : State) : (clearErrs s).finished = s.finished := rfl
@[simp] theorem clearErrs_digest (s : State) : (clearErrs s).digest = s.digest := rfl
@[simp] theorem clearErrs_hexbuf (s : State) : (clearErrs s).hexbuf = s.hexbuf := rfl
@[simp] theorem clearErrs_errFinished (s : State) : (clearErrs s).errFinished = false := rfl
@[simp] theorem clearErrs_errNotFinished (s : State) :
    (clearErrs s).errNotFinished = false := rfl
@[simp] theorem clearErrs_errBadHex (s : State) : (clearErrs s).errBadHex = false := rfl
@[simp] theorem clearErrs_errIllegal (s : State) : (clearErrs s).errIllegal = false := rfl
@[simp] theorem clearErrs_din (s : State) : (clearErrs s).din = s.din := rfl
@[simp] theorem clearErrs_resp (s : State) : (clearErrs s).resp = s.resp := rfl
@[simp] theorem clearErrs_host (s : State) : (clearErrs s).host = s.host := rfl
@[simp] theorem clearErrs_draws (s : State) : (clearErrs s).draws = s.draws := rfl

/-! ### cntAdd -/

@[simp] theorem cntAdd_acc (n : Nat) (s : State) : (cntAdd n s).acc = s.acc := by rw [cntAdd]
@[simp] theorem cntAdd_buf (n : Nat) (s : State) : (cntAdd n s).buf = s.buf := by rw [cntAdd]
@[simp] theorem cntAdd_left (n : Nat) (s : State) : (cntAdd n s).left = s.left := by rw [cntAdd]
@[simp] theorem cntAdd_cntLo (n : Nat) (s : State) :
    (cntAdd n s).cntLo = s.cntLo + BitVec.ofNat 32 n := by rw [cntAdd]
@[simp] theorem cntAdd_cntHi (n : Nat) (s : State) :
    (cntAdd n s).cntHi = if s.cntLo + BitVec.ofNat 32 n < BitVec.ofNat 32 n then s.cntHi + 1#32 else s.cntHi := by rw [cntAdd]
@[simp] theorem cntAdd_finished (n : Nat) (s : State) :
    (cntAdd n s).finished = s.finished := by rw [cntAdd]
@[simp] theorem cntAdd_digest (n : Nat) (s : State) :
    (cntAdd n s).digest = s.digest := by rw [cntAdd]
@[simp] theorem cntAdd_hexbuf (n : Nat) (s : State) :
    (cntAdd n s).hexbuf = s.hexbuf := by rw [cntAdd]
@[simp] theorem cntAdd_errFinished (n : Nat) (s : State) :
    (cntAdd n s).errFinished = s.errFinished := by rw [cntAdd]
@[simp] theorem cntAdd_errNotFinished (n : Nat) (s : State) :
    (cntAdd n s).errNotFinished = s.errNotFinished := by rw [cntAdd]
@[simp] theorem cntAdd_errBadHex (n : Nat) (s : State) :
    (cntAdd n s).errBadHex = s.errBadHex := by rw [cntAdd]
@[simp] theorem cntAdd_errIllegal (n : Nat) (s : State) :
    (cntAdd n s).errIllegal = s.errIllegal := by rw [cntAdd]
@[simp] theorem cntAdd_din (n : Nat) (s : State) : (cntAdd n s).din = s.din := by rw [cntAdd]
@[simp] theorem cntAdd_resp (n : Nat) (s : State) : (cntAdd n s).resp = s.resp := by rw [cntAdd]
@[simp] theorem cntAdd_host (n : Nat) (s : State) : (cntAdd n s).host = s.host := by rw [cntAdd]
@[simp] theorem cntAdd_draws (n : Nat) (s : State) : (cntAdd n s).draws = s.draws := by rw [cntAdd]

/-! ### compress -/

/-- R140: Compress updates CNT, A, B, C and D and nothing else. The field lemmas below rewrite with this
equation: `rfl` on them would compare the compressed words with `s.acc`. -/
theorem compress_eq (blk : List Byte) (s : State) :
    compress blk s = { s with
      acc := compressWords s.acc blk, cntLo := (cntAdd 64 s).cntLo, cntHi := (cntAdd 64 s).cntHi } :=
  rfl

/-! ### compress, field by field -/

@[simp] theorem compress_acc (blk : List Byte) (s : State) :
    (compress blk s).acc = compressWords s.acc blk := by rw [compress_eq]
@[simp] theorem compress_buf (blk : List Byte) (s : State) :
    (compress blk s).buf = s.buf := by rw [compress_eq]
@[simp] theorem compress_left (blk : List Byte) (s : State) :
    (compress blk s).left = s.left := by rw [compress_eq]
@[simp] theorem compress_cntLo (blk : List Byte) (s : State) :
    (compress blk s).cntLo = (cntAdd 64 s).cntLo := by rw [compress_eq]
@[simp] theorem compress_cntHi (blk : List Byte) (s : State) :
    (compress blk s).cntHi = (cntAdd 64 s).cntHi := by rw [compress_eq]
@[simp] theorem compress_finished (blk : List Byte) (s : State) :
    (compress blk s).finished = s.finished := by rw [compress_eq]
@[simp] theorem compress_digest (blk : List Byte) (s : State) :
    (compress blk s).digest = s.digest := by rw [compress_eq]
@[simp] theorem compress_hexbuf (blk : List Byte) (s : State) :
    (compress blk s).hexbuf = s.hexbuf := by rw [compress_eq]
@[simp] theorem compress_errFinished (blk : List Byte) (s : State) :
    (compress blk s).errFinished = s.errFinished := by rw [compress_eq]
@[simp] theorem compress_errNotFinished (blk : List Byte) (s : State) :
    (compress blk s).errNotFinished = s.errNotFinished := by rw [compress_eq]
@[simp] theorem compress_errBadHex (blk : List Byte) (s : State) :
    (compress blk s).errBadHex = s.errBadHex := by rw [compress_eq]
@[simp] theorem compress_errIllegal (blk : List Byte) (s : State) :
    (compress blk s).errIllegal = s.errIllegal := by rw [compress_eq]
@[simp] theorem compress_din (blk : List Byte) (s : State) :
    (compress blk s).din = s.din := by rw [compress_eq]
@[simp] theorem compress_resp (blk : List Byte) (s : State) :
    (compress blk s).resp = s.resp := by rw [compress_eq]
@[simp] theorem compress_host (blk : List Byte) (s : State) :
    (compress blk s).host = s.host := by rw [compress_eq]
@[simp] theorem compress_draws (blk : List Byte) (s : State) :
    (compress blk s).draws = s.draws := by rw [compress_eq]

/-! ### appendTail -/

@[simp] theorem appendTail_acc (data : List Byte) (s : State) :
    (appendTail data s).acc = s.acc := by rw [appendTail]
@[simp] theorem appendTail_buf (data : List Byte) (s : State) :
    (appendTail data s).buf = writeBytes s.buf s.left.toNat data := by rw [appendTail]
@[simp] theorem appendTail_left (data : List Byte) (s : State) :
    (appendTail data s).left = BitVec.ofNat 7 (s.left.toNat + data.length) := by rw [appendTail]
@[simp] theorem appendTail_cntLo (data : List Byte) (s : State) :
    (appendTail data s).cntLo = s.cntLo := by rw [appendTail]
@[simp] theorem appendTail_cntHi (data : List Byte) (s : State) :
    (appendTail data s).cntHi = s.cntHi := by rw [appendTail]
@[simp] theorem appendTail_finished (data : List Byte) (s : State) :
    (appendTail data s).finished = s.finished := by rw [appendTail]
@[simp] theorem appendTail_digest (data : List Byte) (s : State) :
    (appendTail data s).digest = s.digest := by rw [appendTail]
@[simp] theorem appendTail_hexbuf (data : List Byte) (s : State) :
    (appendTail data s).hexbuf = s.hexbuf := by rw [appendTail]
@[simp] theorem appendTail_errFinished (data : List Byte) (s : State) :
    (appendTail data s).errFinished = s.errFinished := by rw [appendTail]
@[simp] theorem appendTail_errNotFinished (data : List Byte) (s : State) :
    (appendTail data s).errNotFinished = s.errNotFinished := by rw [appendTail]
@[simp] theorem appendTail_errBadHex (data : List Byte) (s : State) :
    (appendTail data s).errBadHex = s.errBadHex := by rw [appendTail]
@[simp] theorem appendTail_errIllegal (data : List Byte) (s : State) :
    (appendTail data s).errIllegal = s.errIllegal := by rw [appendTail]
@[simp] theorem appendTail_din (data : List Byte) (s : State) :
    (appendTail data s).din = s.din := by rw [appendTail]
@[simp] theorem appendTail_resp (data : List Byte) (s : State) :
    (appendTail data s).resp = s.resp := by rw [appendTail]
@[simp] theorem appendTail_host (data : List Byte) (s : State) :
    (appendTail data s).host = s.host := by rw [appendTail]
@[simp] theorem appendTail_draws (data : List Byte) (s : State) :
    (appendTail data s).draws = s.draws := by rw [appendTail]

/-! ### completeBlock -/

theorem completeBlock_eq (data : List Byte) (s : State) :
    completeBlock data s = { s with
      acc := compressWords s.acc (writeBytes s.buf s.left.toNat data).toList
      buf := writeBytes s.buf s.left.toNat data
      left := 0#7, cntLo := (cntAdd 64 s).cntLo, cntHi := (cntAdd 64 s).cntHi } := by
  rw [completeBlock, compress_eq]
  rfl

/-! ### completeBlock, field by field -/

@[simp] theorem completeBlock_acc (data : List Byte) (s : State) :
    (completeBlock data s).acc = compressWords s.acc (writeBytes s.buf s.left.toNat data).toList := by rw [completeBlock_eq]
@[simp] theorem completeBlock_buf (data : List Byte) (s : State) :
    (completeBlock data s).buf = writeBytes s.buf s.left.toNat data := by rw [completeBlock_eq]
@[simp] theorem completeBlock_left (data : List Byte) (s : State) :
    (completeBlock data s).left = 0#7 := by rw [completeBlock_eq]
@[simp] theorem completeBlock_cntLo (data : List Byte) (s : State) :
    (completeBlock data s).cntLo = (cntAdd 64 s).cntLo := by rw [completeBlock_eq]
@[simp] theorem completeBlock_cntHi (data : List Byte) (s : State) :
    (completeBlock data s).cntHi = (cntAdd 64 s).cntHi := by rw [completeBlock_eq]
@[simp] theorem completeBlock_finished (data : List Byte) (s : State) :
    (completeBlock data s).finished = s.finished := by rw [completeBlock_eq]
@[simp] theorem completeBlock_digest (data : List Byte) (s : State) :
    (completeBlock data s).digest = s.digest := by rw [completeBlock_eq]
@[simp] theorem completeBlock_hexbuf (data : List Byte) (s : State) :
    (completeBlock data s).hexbuf = s.hexbuf := by rw [completeBlock_eq]
@[simp] theorem completeBlock_errFinished (data : List Byte) (s : State) :
    (completeBlock data s).errFinished = s.errFinished := by rw [completeBlock_eq]
@[simp] theorem completeBlock_errNotFinished (data : List Byte) (s : State) :
    (completeBlock data s).errNotFinished = s.errNotFinished := by rw [completeBlock_eq]
@[simp] theorem completeBlock_errBadHex (data : List Byte) (s : State) :
    (completeBlock data s).errBadHex = s.errBadHex := by rw [completeBlock_eq]
@[simp] theorem completeBlock_errIllegal (data : List Byte) (s : State) :
    (completeBlock data s).errIllegal = s.errIllegal := by rw [completeBlock_eq]
@[simp] theorem completeBlock_din (data : List Byte) (s : State) :
    (completeBlock data s).din = s.din := by rw [completeBlock_eq]
@[simp] theorem completeBlock_resp (data : List Byte) (s : State) :
    (completeBlock data s).resp = s.resp := by rw [completeBlock_eq]
@[simp] theorem completeBlock_host (data : List Byte) (s : State) :
    (completeBlock data s).host = s.host := by rw [completeBlock_eq]
@[simp] theorem completeBlock_draws (data : List Byte) (s : State) :
    (completeBlock data s).draws = s.draws := by rw [completeBlock_eq]

/-! ### storeDigest -/

@[simp] theorem storeDigest_acc (s : State) : (storeDigest s).acc = s.acc := by rw [storeDigest]
@[simp] theorem storeDigest_buf (s : State) : (storeDigest s).buf = s.buf := by rw [storeDigest]
@[simp] theorem storeDigest_left (s : State) : (storeDigest s).left = s.left := by rw [storeDigest]
@[simp] theorem storeDigest_cntLo (s : State) : (storeDigest s).cntLo = s.cntLo := by rw [storeDigest]
@[simp] theorem storeDigest_cntHi (s : State) : (storeDigest s).cntHi = s.cntHi := by rw [storeDigest]
@[simp] theorem storeDigest_finished (s : State) : (storeDigest s).finished = true := by rw [storeDigest]
@[simp] theorem storeDigest_digest (s : State) :
    (storeDigest s).digest = packBytes 16 (digestBytes s.acc) := by rw [storeDigest]
@[simp] theorem storeDigest_hexbuf (s : State) :
    (storeDigest s).hexbuf = packBytes 33 (hexEncode (digestBytes s.acc) 33) := by rw [storeDigest]
@[simp] theorem storeDigest_errFinished (s : State) :
    (storeDigest s).errFinished = s.errFinished := by rw [storeDigest]
@[simp] theorem storeDigest_errNotFinished (s : State) :
    (storeDigest s).errNotFinished = s.errNotFinished := by rw [storeDigest]
@[simp] theorem storeDigest_errBadHex (s : State) :
    (storeDigest s).errBadHex = s.errBadHex := by rw [storeDigest]
@[simp] theorem storeDigest_errIllegal (s : State) :
    (storeDigest s).errIllegal = s.errIllegal := by rw [storeDigest]
@[simp] theorem storeDigest_din (s : State) : (storeDigest s).din = s.din := by rw [storeDigest]
@[simp] theorem storeDigest_resp (s : State) : (storeDigest s).resp = s.resp := by rw [storeDigest]
@[simp] theorem storeDigest_host (s : State) : (storeDigest s).host = s.host := by rw [storeDigest]
@[simp] theorem storeDigest_draws (s : State) : (storeDigest s).draws = s.draws := by rw [storeDigest]

/-! ### initEngine (BUF, DIGEST and HEXBUF hold free values and have no lemma) -/

@[simp] theorem initEngine_acc (s : State) : (initEngine s).acc = iv := by rw [initEngine]
@[simp] theorem initEngine_left (s : State) : (initEngine s).left = 0#7 := by rw [initEngine]
@[simp] theorem initEngine_cntLo (s : State) : (initEngine s).cntLo = 0#32 := by rw [initEngine]
@[simp] theorem initEngine_cntHi (s : State) : (initEngine s).cntHi = 0#32 := by rw [initEngine]
@[simp] theorem initEngine_finished (s : State) : (initEngine s).finished = false := by rw [initEngine]
@[simp] theorem initEngine_errFinished (s : State) : (initEngine s).errFinished = false := by rw [initEngine]
@[simp] theorem initEngine_errNotFinished (s : State) :
    (initEngine s).errNotFinished = false := by rw [initEngine]
@[simp] theorem initEngine_errBadHex (s : State) : (initEngine s).errBadHex = false := by rw [initEngine]
@[simp] theorem initEngine_errIllegal (s : State) : (initEngine s).errIllegal = false := by rw [initEngine]
@[simp] theorem initEngine_din (s : State) : (initEngine s).din = s.din := by rw [initEngine]
@[simp] theorem initEngine_resp (s : State) : (initEngine s).resp = s.resp := by rw [initEngine]
@[simp] theorem initEngine_host (s : State) : (initEngine s).host = s.host := by rw [initEngine]
@[simp] theorem initEngine_draws (s : State) : (initEngine s).draws = s.draws + 113 := by rw [initEngine]

end Sys2Proof.Machine
end

