-- ==== Sys2Proof/Laws/Ops.lean ====
section
/-!
SUPPORT. Laws/Ops.lean: one lemma for each shared operation on byte sequences, arrays, the stream and
the codec, for later proofs to cite instead of unfolding it.
-/
namespace Sys2Proof.Machine

/-! ### Byte sequences and arrays -/

@[simp] theorem bytesLe32_length (w : Word) : (bytesLe32 w).length = 4 := rfl

@[simp] theorem zeros_length (n : Nat) : (zeros n).length = n := List.length_replicate

@[simp] theorem digestBytes_length (w : Words) : (digestBytes w).length = 16 := rfl

@[simp] theorem unspecAt_length (k n : Nat) : (unspecAt k n).length = n := by simp [unspecAt]

@[simp] theorem messageWords_length (blk : List Byte) : (messageWords blk).length = 16 := by
  simp [messageWords]

theorem byteAt_eq_getElem {s : List Byte} {i : Nat} (h : i < s.length) : byteAt s i = s[i] := by
  simp [byteAt, h]

@[simp] theorem packBytes_getElem (n : Nat) (s : List Byte) (i : Nat) (h : i < n) :
    (packBytes n s)[i] = byteAt s i := by
  simp [packBytes]

/-- An array packed from a sequence of its own length holds that sequence. -/
theorem packBytes_toList {n : Nat} {s : List Byte} (h : s.length = n) :
    (packBytes n s).toList = s := by
  apply List.ext_getElem
  · simp [h]
  · intro i h1 h2
    simp [packBytes, byteAt_eq_getElem h2]

/-- What writeBytes does: the bytes from `off` on are those of `s`, every other byte is kept. -/
theorem writeBytes_getElem {n : Nat} (v : Vector Byte n) (off : Nat) (s : List Byte) (i : Nat)
    (h : i < n) :
    (writeBytes v off s)[i] = if off ≤ i ∧ i < off + s.length then byteAt s (i - off) else v[i] := by
  simp [writeBytes]

@[simp] theorem writeBytes_nil {n : Nat} (v : Vector Byte n) (off : Nat) : writeBytes v off [] = v := by
  apply Vector.ext
  intro i h
  rw [writeBytes_getElem, if_neg (by simp only [List.length_nil]; omega)]

/-- The bytes before the write stay. -/
theorem take_writeBytes {n : Nat} (v : Vector Byte n) (off : Nat) (s : List Byte) :
    (writeBytes v off s).toList.take off = v.toList.take off := by
  apply List.ext_getElem
  · simp
  · intro i h1 h2
    simp only [List.length_take, Vector.length_toList, lt_min_iff] at h1
    simp only [List.getElem_take, Vector.getElem_toList, writeBytes_getElem]
    rw [if_neg (by omega)]

/-- The bytes up to the end of the write are the old ones followed by those written. -/
theorem take_writeBytes_append {n : Nat} (v : Vector Byte n) (off : Nat) (s : List Byte)
    (h : off + s.length ≤ n) :
    (writeBytes v off s).toList.take (off + s.length) = v.toList.take off ++ s := by
  apply List.ext_getElem
  · simp; omega
  · intro i h1 h2
    simp only [List.length_take, Vector.length_toList, lt_min_iff] at h1
    simp only [List.getElem_take, Vector.getElem_toList, writeBytes_getElem]
    by_cases hi : i < off
    · rw [if_neg (by omega), List.getElem_append_left (by simp; omega)]
      simp
    · rw [if_pos (by omega), List.getElem_append_right (by simp; omega),
        byteAt_eq_getElem (by omega)]
      simp only [List.length_take, Vector.length_toList]
      congr 1
      omega

/-! ### The round steps -/

@[simp] theorem roundSteps_zero (m : List Word) (w : Words) : roundSteps m 0 w = w := rfl

/-- Round steps in order: one more step at the end. -/
theorem roundSteps_succ (m : List Word) (n : Nat) (w : Words) :
    roundSteps m (n + 1) w = roundStep m n (roundSteps m n w) := by
  simp [roundSteps, List.range_succ]

/-! ### The streaming buffer -/

@[simp] theorem absorbBlocks_zero (data : List Byte) (s : State) : absorbBlocks 0 data s = (data, s) :=
  rfl

/-- Phase 2 on a chunk that holds a whole block. -/
theorem absorbBlocks_succ {data : List Byte} (k : Nat) (s : State) (h : 64 ≤ data.length) :
    absorbBlocks (k + 1) data s = absorbBlocks k (data.drop 64) (compress (data.take 64) s) := by
  rw [absorbBlocks, if_pos h]

/-- Phase 2 consumes exactly the whole blocks of the chunk. -/
theorem absorbBlocks_rest (k : Nat) (data : List Byte) (s : State) (h : 64 * k ≤ data.length) :
    (absorbBlocks k data s).1 = data.drop (64 * k) := by
  induction k generalizing data s with
  | zero => simp
  | succ k ih =>
    rw [absorbBlocks_succ k s (by omega), ih _ _ (by simp; omega), List.drop_drop]
    congr 1
    omega

/-- The first of several blocks. -/
theorem foldBlocks_cons (k : Nat) (data : List Byte) (w : Words) :
    foldBlocks (k + 1) data w = foldBlocks k (data.drop 64) (compressWords w (data.take 64)) := by
  simp only [foldBlocks, List.range_succ_eq_map, List.foldl_cons, List.foldl_map, blockAt,
    List.drop_drop, Nat.mul_zero, List.drop_zero, Nat.mul_succ, Nat.add_comm]

/-- The last of several blocks. -/
theorem foldBlocks_succ (k : Nat) (data : List Byte) (w : Words) :
    foldBlocks (k + 1) data w = compressWords (foldBlocks k data w) (blockAt data k) := by
  simp only [foldBlocks, List.range_succ, List.foldl_append, List.foldl_cons, List.foldl_nil]

/-- What absorbing whole blocks does to the state: it folds the compression over them and counts them;
no other field changes. -/
theorem absorbBlocks_state (k : Nat) (data : List Byte) (s : State) (h : 64 * k ≤ data.length) :
    (absorbBlocks k data s).2 = { s with
      acc := foldBlocks k data s.acc
      cntLo := (absorbBlocks k data s).2.cntLo, cntHi := (absorbBlocks k data s).2.cntHi } := by
  induction k generalizing data s with
  | zero => simp only [absorbBlocks_zero, foldBlocks, List.range_zero, List.foldl_nil]
  | succ k ih =>
    rw [absorbBlocks_succ k s (by omega), ih _ _ (by simp; omega), foldBlocks_cons]
    simp only [compress_acc, compress_buf, compress_left, compress_finished, compress_digest,
      compress_hexbuf, compress_errFinished, compress_errNotFinished, compress_errBadHex,
      compress_errIllegal, compress_din, compress_resp, compress_host, compress_draws]

/-- ProcessChunk on a chunk that does not complete a block: phase 3 alone. -/
theorem processChunk_short (data : List Byte) (s : State) (h : s.left.toNat + data.length < 64) :
    processChunk data s = appendTail data s := by
  rw [processChunk, if_neg (by simp only [Config.blockBytes]; omega), absorbRest,
    Nat.div_eq_of_lt (by simp only [Config.blockBytes]; omega), absorbBlocks_zero]

/-! ### The hex codec -/

@[simp] theorem hexChars_length (d : List Byte) : (hexChars d).length = 2 * d.length := by
  induction d with
  | nil => rfl
  | cons b d ih =>
    rw [hexChars, List.flatMap_cons, List.length_append, ← hexChars, ih]
    simp only [hexPair, List.length_cons, List.length_nil]
    omega

/-- With room for the characters and nothing more, the encoding is the characters. -/
theorem hexEncode_32 {d : List Byte} (h : d.length = 16) : hexEncode d 32 = hexChars d := by
  rw [hexEncode, if_neg (by decide)]
  exact List.take_of_length_le (by simp [h])

/-- A character of the alphabet has its nibble as value. -/
@[simp] theorem hexVal_hexChar (v : BitVec 4) : hexVal (hexChar v) = some v := by
  revert v
  decide

/-- A valid character is the character of its value. -/
theorem hexChar_of_hexVal {c : Byte} {v : BitVec 4} (h : hexVal c = some v) : hexChar v = c := by
  revert c v
  decide

/-- A byte is made of its two nibbles. -/
@[simp] theorem joinNibbles_nibbles (b : Byte) :
    joinNibbles (b.extractLsb' 4 4) (b.extractLsb' 0 4) = b := by
  revert b
  decide

/-- The nibbles of a byte made of two are those two. -/
@[simp] theorem hexPair_joinNibbles (hi lo : BitVec 4) :
    hexPair (joinNibbles hi lo) = [hexChar hi, hexChar lo] := by
  revert hi lo
  decide

end Sys2Proof.Machine
end

