-- ==== Sys2Proof/Laws/PerInstr.lean ====
section
/-!
SUPPORT. Laws/PerInstr.lean: the family EncodeLegal, a statement about each command as syntax: its word
is legal (30_encoding.md R77) exactly when the command is well formed.
-/
namespace Sys2Proof

def Laws.EncodeLegal.Statement (i : Instr) : Prop := legal (encode i) = i.wellFormed

theorem Laws.EncodeLegal.nop : Laws.EncodeLegal.Statement .nop := by
  rw [Laws.EncodeLegal.Statement]; decide

theorem Laws.EncodeLegal.init : Laws.EncodeLegal.Statement .init := by
  rw [Laws.EncodeLegal.Statement]; decide

theorem Laws.EncodeLegal.process (n : BitVec 7) : Laws.EncodeLegal.Statement (.process n) := by
  rw [Laws.EncodeLegal.Statement]; revert n; decide

theorem Laws.EncodeLegal.finish (copy : Bool) : Laws.EncodeLegal.Statement (.finish copy) := by
  rw [Laws.EncodeLegal.Statement]; revert copy; decide

theorem Laws.EncodeLegal.getDigest : Laws.EncodeLegal.Statement .getDigest := by
  rw [Laws.EncodeLegal.Statement]; decide

theorem Laws.EncodeLegal.getHex : Laws.EncodeLegal.Statement .getHex := by
  rw [Laws.EncodeLegal.Statement]; decide

theorem Laws.EncodeLegal.hexEncode (cap : BitVec 6) :
    Laws.EncodeLegal.Statement (.hexEncode cap) := by
  rw [Laws.EncodeLegal.Statement]; revert cap; decide

theorem Laws.EncodeLegal.hexDecode : Laws.EncodeLegal.Statement .hexDecode := by
  rw [Laws.EncodeLegal.Statement]; decide

theorem Laws.EncodeLegal.readStatus : Laws.EncodeLegal.Statement .readStatus := by
  rw [Laws.EncodeLegal.Statement]; decide

theorem Laws.EncodeLegal.clearStatus : Laws.EncodeLegal.Statement .clearStatus := by
  rw [Laws.EncodeLegal.Statement]; decide

end Sys2Proof
end

