-- ==== Sys2Proof/Laws/Stream.lean ====
section
/-!
SUPPORT. Laws/Stream.lean: what the streaming buffer and the padding sequencer do, operation by
operation: which fields each writes and the compressed words it leaves.
-/
namespace Sys2Proof.Machine

/-! ### Blocks of a byte sequence -/

@[simp] theorem foldBlocks_zero (data : List Byte) (w : Words) : foldBlocks 0 data w = w := by
  rw [foldBlocks, List.range_zero, List.foldl_nil]

/-- The blocks of a sequence do not depend on what follows them. -/
theorem foldBlocks_append (k : Nat) (x y : List Byte) (w : Words) (h : 64 * k ≤ x.length) :
    foldBlocks k (x ++ y) w = foldBlocks k x w := by
  induction k with
  | zero => rw [foldBlocks_zero, foldBlocks_zero]
  | succ k ih =>
    rw [foldBlocks_succ, foldBlocks_succ, ih (by omega)]
    simp only [blockAt, Config.blockBytes]
    rw [List.drop_append_of_le_length (by omega), List.take_append_of_le_length (by simp; omega)]

/-- A whole block in front is compressed first. -/
theorem foldBlocks_block (k : Nat) (x y : List Byte) (w : Words) (h : x.length = 64) :
    foldBlocks (k + 1) (x ++ y) w = foldBlocks k y (compressWords w x) := by
  rw [foldBlocks_cons, List.drop_append_of_le_length (by omega),
    List.take_append_of_le_length (by omega), List.drop_of_length_le (by omega),
    List.take_of_length_le (by omega), List.nil_append]

/-- The first `a` blocks, then `b` more. -/
theorem foldBlocks_add (a b : Nat) (data : List Byte) (w : Words) :
    foldBlocks (a + b) data w = foldBlocks b (data.drop (64 * a)) (foldBlocks a data w) := by
  induction b with
  | zero => rw [foldBlocks_zero, Nat.add_zero]
  | succ b ih =>
    rw [← Nat.add_assoc, foldBlocks_succ, ih, foldBlocks_succ]
    congr 1
    simp [blockAt, List.drop_drop, Nat.mul_add]

/-! ### Arrays and lanes -/

/-- A write that reaches the end of the array. -/
theorem toList_writeBytes {n : Nat} (v : Vector Byte n) (off : Nat) (d : List Byte)
    (h : off + d.length = n) : (writeBytes v off d).toList = v.toList.take off ++ d := by
  rw [← take_writeBytes_append v off d (by omega), h, List.take_of_length_le (by simp)]

/-- The lanes a command reads. -/
theorem dinLanes_length (n : Nat) (s : State) (h : n ≤ 64) : (dinLanes n s).length = n := by
  simp [dinLanes]
  omega

/-- The leftover bytes followed by a chunk. -/
theorem leftover_length (s : State) (data : List Byte) (h : s.left.toNat ≤ 64) :
    (s.buf.toList.take s.left.toNat ++ data).length = s.left.toNat + data.length := by
  simp
  omega

/-! ### ProcessChunk -/

/-- Phases 2 and 3 of R100, field by field. -/
theorem absorbRest_eq (data : List Byte) (s : State) :
    absorbRest data s = { s with
      acc := foldBlocks (data.length / 64) data s.acc
      buf := writeBytes s.buf s.left.toNat (data.drop (64 * (data.length / 64)))
      left := BitVec.ofNat 7 (s.left.toNat + data.length % 64)
      cntLo := (absorbBlocks (data.length / 64) data s).2.cntLo
      cntHi := (absorbBlocks (data.length / 64) data s).2.cntHi } := by
  have hk : 64 * (data.length / 64) ≤ data.length := Nat.mul_div_le _ _
  have hmod : data.length - 64 * (data.length / 64) = data.length % 64 := by omega
  simp only [absorbRest, Config.blockBytes, appendTail]
  rw [absorbBlocks_rest _ _ _ hk]
  have := absorbBlocks_state _ data s hk
  generalize (absorbBlocks (data.length / 64) data s).2 = t at this
  rw [this, List.length_drop, hmod]

/-- ProcessChunk writes A to D, BUF, LEFT and CNT only. -/
theorem processChunk_frame (data : List Byte) (s : State) :
    processChunk data s = { s with
      acc := (processChunk data s).acc, buf := (processChunk data s).buf
      left := (processChunk data s).left
      cntLo := (processChunk data s).cntLo, cntHi := (processChunk data s).cntHi } := by
  have h : ∀ d u, absorbRest d u = { u with
      acc := (absorbRest d u).acc, buf := (absorbRest d u).buf, left := (absorbRest d u).left
      cntLo := (absorbRest d u).cntLo, cntHi := (absorbRest d u).cntHi } := by
    intro d u
    rw [absorbRest_eq]
  rw [processChunk]
  split
  · rw [h]
    simp only [completeBlock_finished, completeBlock_digest, completeBlock_hexbuf,
      completeBlock_errFinished, completeBlock_errNotFinished, completeBlock_errBadHex,
      completeBlock_errIllegal, completeBlock_din, completeBlock_resp, completeBlock_host,
      completeBlock_draws]
  · exact h _ _

/-- R103: with Q the leftover bytes followed by the chunk, the whole blocks of Q are compressed in
order. -/
theorem processChunk_acc (data : List Byte) (s : State) (h : s.left.toNat ≤ 63) :
    (processChunk data s).acc = foldBlocks ((s.left.toNat + data.length) / 64)
      (s.buf.toList.take s.left.toNat ++ data) s.acc := by
  rw [processChunk]
  split
  · next hc =>
    simp only [Config.blockBytes] at hc ⊢
    have hk : (data.take (64 - s.left.toNat)).length = 64 - s.left.toNat := by simp; omega
    rw [absorbRest_eq]
    dsimp only
    rw [completeBlock_acc, toList_writeBytes _ _ _ (by omega)]
    have hfirst : (s.buf.toList.take s.left.toNat ++ data.take (64 - s.left.toNat)).length = 64 := by
      rw [leftover_length _ _ (by omega)]
      omega
    conv_rhs => rw [← List.take_append_drop (64 - s.left.toNat) data, ← List.append_assoc]
    rw [← foldBlocks_block _ _ _ _ hfirst]
    congr 1
    simp
    omega
  · next hc =>
    simp only [Config.blockBytes] at hc
    rw [absorbRest_eq]
    dsimp only
    rcases Nat.eq_zero_or_pos s.left.toNat with h0 | h0
    · simp [h0]
    · rw [show data.length / 64 = 0 by omega, show (s.left.toNat + data.length) / 64 = 0 by omega,
        foldBlocks_zero, foldBlocks_zero]

/-- R103: the bytes of Q after its whole blocks are the leftover bytes afterwards. -/
theorem processChunk_buf (data : List Byte) (s : State) (h : s.left.toNat ≤ 63) :
    (processChunk data s).buf.toList.take ((s.left.toNat + data.length) % 64) =
      (s.buf.toList.take s.left.toNat ++ data).drop (64 * ((s.left.toNat + data.length) / 64)) := by
  rw [processChunk]
  split
  · next hc =>
    simp only [Config.blockBytes] at hc ⊢
    rw [absorbRest_eq]
    dsimp only
    rw [completeBlock_left, completeBlock_buf]
    generalize hr : data.drop (64 - s.left.toNat) = r
    have hrl : r.length = data.length - (64 - s.left.toNat) := by rw [← hr, List.length_drop]
    have := take_writeBytes_append (writeBytes s.buf s.left.toNat (List.take (64 - s.left.toNat) data))
      0 (r.drop (64 * (r.length / 64))) (by simp; omega)
    rw [Nat.zero_add, List.take_zero, List.nil_append] at this
    rw [show (s.left.toNat + data.length) % 64 = (r.drop (64 * (r.length / 64))).length by
      simp; omega]
    simp only [BitVec.toNat_ofNat, Nat.zero_mod]
    rw [this, ← hr, List.drop_drop]
    conv_rhs =>
      rw [List.drop_append, List.drop_of_length_le (l := s.buf.toList.take s.left.toNat)
        (by simp; omega), List.nil_append]
    congr 1
    simp
    omega
  · next hc =>
    simp only [Config.blockBytes] at hc
    rw [absorbRest_eq]
    dsimp only
    rw [show (s.left.toNat + data.length) % 64
      = s.left.toNat + (data.drop (64 * (data.length / 64))).length by simp; omega]
    rw [take_writeBytes_append _ _ _ (by simp; omega)]
    rcases Nat.eq_zero_or_pos s.left.toNat with h0 | h0
    · simp [h0]
    · rw [show data.length / 64 = 0 by omega, show (s.left.toNat + data.length) / 64 = 0 by omega]
      simp

/-! ### FINISH -/

/-- R112: the padding blocks write A to D and CNT only. -/
theorem compressTail_frame (tail : List Byte) (s : State) :
    compressTail tail s = { s with
      acc := (compressTail tail s).acc
      cntLo := (compressTail tail s).cntLo, cntHi := (compressTail tail s).cntHi } := by
  rw [compressTail]
  split <;> (apply State.ext <;> simp only [compress_buf, compress_left, compress_finished,
    compress_digest, compress_hexbuf, compress_errFinished, compress_errNotFinished,
    compress_errBadHex, compress_errIllegal, compress_din, compress_resp, compress_host,
    compress_draws])

/-- R112: the words after one or two padding blocks. -/
theorem compressTail_acc (tail : List Byte) (s : State) :
    (compressTail tail s).acc = if tail.length = 128
      then compressWords (compressWords s.acc (tail.take 64)) ((tail.drop 64).take 64)
      else compressWords s.acc (tail.take 64) := by
  rw [compressTail]
  split <;> simp

/-- R107, "State written": A to D, CNT, DIGEST, HEXBUF and FINISHED only. -/
theorem finalise_frame (s : State) :
    finalise s = { s with
      acc := (finalise s).acc, cntLo := (finalise s).cntLo, cntHi := (finalise s).cntHi
      digest := (finalise s).digest, hexbuf := (finalise s).hexbuf, finished := true } := by
  rw [finalise, storeDigest]
  dsimp only
  have := compressTail_frame (paddedTail (cntAdd s.left.toNat s)) (cntAdd s.left.toNat s)
  generalize compressTail (paddedTail (cntAdd s.left.toNat s)) (cntAdd s.left.toNat s) = t at this
  rw [this]
  simp only [cntAdd]

/-- R112: the words FINISH leaves are those after the padded tail. -/
theorem finalise_acc (s : State) :
    (finalise s).acc
      = (compressTail (paddedTail (cntAdd s.left.toNat s)) (cntAdd s.left.toNat s)).acc := by
  rw [finalise, storeDigest_acc]

/-- R113. -/
theorem finalise_digest (s : State) :
    (finalise s).digest.toList = digestBytes (finalise s).acc := by
  rw [finalise, storeDigest_digest, storeDigest_acc, packBytes_toList (by simp)]

/-- R181: the length of an encoding. -/
theorem hexEncode_length (d : List Byte) (cap : Nat) (h : d.length = 16) :
    (hexEncode d cap).length = min cap 33 := by
  rw [hexEncode]
  split <;> simp [h] at * <;> omega

/-- R114. -/
theorem finalise_hexbuf (s : State) :
    (finalise s).hexbuf.toList = hexEncode (digestBytes (finalise s).acc) 33 := by
  rw [finalise, storeDigest_hexbuf, storeDigest_acc,
    packBytes_toList (by rw [hexEncode_length _ _ (by simp)]; rfl)]

/-! ### HEX_DECODE -/

/-- A decoded pair of characters. -/
theorem hexDecode_cons {c0 c1 : Byte} {rest out : List Byte}
    (h : hexDecode (c0 :: c1 :: rest) = some out) :
    ∃ hi lo o, hexVal c0 = some hi ∧ hexVal c1 = some lo ∧ hexDecode rest = some o
      ∧ out = joinNibbles hi lo :: o := by
  rw [hexDecode] at h
  split at h
  · next hi lo o h1 h2 h3 =>
    cases h
    exact ⟨hi, lo, o, h1, h2, h3, rfl⟩
  · cases h

/-- Two characters per byte. -/
theorem hexDecode_length (n : Nat) (h out : List Byte) (hl : h.length = 2 * n)
    (hd : hexDecode h = some out) : out.length = n := by
  induction n generalizing h out with
  | zero =>
    obtain rfl : h = [] := List.length_eq_zero_iff.1 hl
    cases hd
    rfl
  | succ n ih =>
    match h, hl with
    | c0 :: c1 :: rest, hl =>
      obtain ⟨hi, lo, o, -, -, h3, rfl⟩ := hexDecode_cons hd
      rw [List.length_cons, ih rest o (by simp at hl; omega) h3]

/-! ### States that differ in stale bytes only -/

theorem AgreeButStale.refl (s : State) : AgreeButStale s s := ⟨rfl, fun _ _ _ => rfl⟩

theorem AgreeButStale.left_eq {s t : State} (h : AgreeButStale s t) : t.left = s.left := by
  rw [h.rest]

theorem AgreeButStale.trans {s t u : State} (h1 : AgreeButStale s t) (h2 : AgreeButStale t u) :
    AgreeButStale s u := by
  constructor
  · rw [h2.rest, h1.rest]
  · intro j hj h
    rw [h2.live j hj (by rwa [h1.left_eq]), h1.live j hj h]

theorem AgreeButStale.respond {s t : State} (r : List Byte) (h : AgreeButStale s t) :
    AgreeButStale (respond r s) (respond r t) := by
  refine ⟨?_, h.live⟩
  rw [h.rest]
  rfl

end Sys2Proof.Machine
end

