-- ==== Sys2Proof/Laws/Step.lean ====
section
/-!
SUPPORT. Laws/Step.lean: what one step can do, said once: the three kinds of host event, a command
word's two cases, that `exec` has one branch for each condition of its command, and that no step
goes back to an unspecified byte already drawn.
-/
namespace Sys2Proof.Machine

/-- R204. -/
theorem illegal_eq (s : State) : illegal s = { s with errIllegal := true, resp := [] } := rfl

/-- A command word: a decoded command runs, any other word has the illegal effect. -/
theorem transact_cases {cmd : Word} {din : Vector Byte 64} {s t : State}
    (h : transact cmd din s = .next t) :
    (∃ i, decode cmd = .ok i ∧ exec i { s with din := din } = .next t)
      ∨ (∃ e, decode cmd = .error e) ∧ t = illegal { s with din := din } := by
  rw [transact, runWord] at h
  split at h
  · next i hi => exact .inl ⟨i, hi, h⟩
  · next e he =>
    cases h
    exact .inr ⟨⟨e, he⟩, rfl⟩

/-- A step: waiting, the reset input, or a transaction. -/
theorem step_cases {s t : State} (h : step s = .next t) :
    (s.host = [] ∧ t = s)
      ∨ (∃ rest, s.host = .reset :: rest ∧ t = resetInput { s with host := rest })
      ∨ (∃ cmd din rest, s.host = .command cmd din :: rest
          ∧ transact cmd din { s with host := rest } = .next t) := by
  rw [step, takeEvent] at h
  split at h
  · next hs =>
    cases h
    exact .inl ⟨hs, rfl⟩
  · next rest hs =>
    cases h
    exact .inr (.inl ⟨rest, hs, rfl⟩)
  · next cmd din rest hs => exact .inr (.inr ⟨cmd, din, rest, hs, h⟩)

/-- PROCESS of a legal count, R106. -/
theorem execProcess_cases {n : BitVec 7} {s t : State} (h : execProcess n s = .next t) :
    (64 < n.toNat ∧ t = illegal s)
      ∨ (n.toNat ≤ 64 ∧ s.finished = true ∧ t = respond [] (setErr .finished s))
      ∨ (n.toNat ≤ 64 ∧ s.finished = false
          ∧ t = respond [] (processChunk (dinLanes n.toNat s) s)) := by
  rw [execProcess] at h
  split at h
  · next hn =>
    cases h
    exact .inl ⟨hn, rfl⟩
  · next hn =>
    have hn' : n.toNat ≤ 64 := Nat.le_of_not_lt hn
    split at h
    · next hf =>
      cases h
      exact .inr (.inl ⟨hn', hf, rfl⟩)
    · next hf =>
      cases h
      exact .inr (.inr ⟨hn', by simpa using hf, rfl⟩)

/-- FINISH, R107 and R116. -/
theorem execFinish_cases {copy : Bool} {s t : State} (h : execFinish copy s = .next t) :
    (s.finished = true ∧ t = respond [] (setErr .finished s))
      ∨ (s.finished = false
          ∧ t = respond (if copy then (finalise s).digest.toList else []) (finalise s)) := by
  rw [execFinish] at h
  split at h
  · next hf =>
    cases h
    exact .inl ⟨hf, rfl⟩
  · next hf =>
    cases h
    exact .inr ⟨by simpa using hf, rfl⟩

/-- HEX_DECODE, R185. -/
theorem execHexDecode_cases {s t : State} (h : execHexDecode s = .next t) :
    (hexDecode (dinLanes 32 s) = none ∧ t = respondUnspec 16 (setErr .badHex s))
      ∨ ∃ out, hexDecode (dinLanes 32 s) = some out ∧ t = respond out s := by
  rw [execHexDecode] at h
  split at h
  · next hd =>
    cases h
    exact .inl ⟨hd, rfl⟩
  · next out hd =>
    cases h
    exact .inr ⟨out, hd, rfl⟩

/-- A command draws only numbers from the counter on. -/
theorem exec_draws_le {i : Instr} {s t : State} (h : exec i s = .next t) : s.draws ≤ t.draws := by
  cases i with
  | process n =>
    rcases execProcess_cases h with ⟨-, rfl⟩ | ⟨-, -, rfl⟩ | ⟨-, -, rfl⟩
    · simp [illegal]
    · simp
    · rw [respond_draws, processChunk_frame]
  | finish copy =>
    rcases execFinish_cases h with ⟨-, rfl⟩ | ⟨-, rfl⟩
    · simp
    · rw [respond_draws, finalise_frame]
  | getDigest =>
    simp only [exec, execGetDigest] at h
    split at h <;> (cases h; simp)
  | getHex =>
    simp only [exec, execGetHex] at h
    split at h <;> (cases h; simp)
  | hexDecode =>
    rcases execHexDecode_cases h with ⟨-, rfl⟩ | ⟨out, -, rfl⟩ <;> simp
  | nop | init | hexEncode | readStatus | clearStatus =>
    cases h
    simp

/-- A step, whatever the event, draws only numbers from the counter on. -/
theorem step_draws_le {s t : State} (h : step s = .next t) : s.draws ≤ t.draws := by
  rcases step_cases h with ⟨-, rfl⟩ | ⟨rest, -, rfl⟩ | ⟨cmd, din, rest, -, ht⟩
  · exact le_refl _
  · simp [resetInput]
  · rcases transact_cases ht with ⟨i, -, hi⟩ | ⟨-, rfl⟩
    · have := exec_draws_le hi
      exact this
    · simp [illegal]

/-- A step of a system: a number without an instance, or one instance's step on the system's counter. -/
theorem stepEngine_cases {k : Nat} {es es' : Engines} (h : stepEngine k es = .next es') :
    (es.states[k]? = none ∧ es' = es)
      ∨ ∃ s t, es.states[k]? = some s ∧ step { s with draws := es.draws } = .next t
          ∧ es' = { states := es.states.set k t, draws := t.draws } := by
  rw [stepEngine] at h
  split at h
  · next hs =>
    cases h
    exact .inl ⟨hs, rfl⟩
  · next s hs =>
    split at h
    · next t ht =>
      cases h
      exact .inr ⟨s, t, hs, ht, rfl⟩
    · cases h
    · cases h

end Sys2Proof.Machine
end

