-- ==== Sys2Proof/Tests/Slice0.lean ====
section
/-!
SUPPORT. Tests/Slice0.lean: the ill-formed terms WellFormed refuses, command words written out from the
spec's encoding, vectors of 95_test_vectors.md (named in each comment), and a witness for the
hypotheses of each statement.
-/
namespace Sys2Proof.Tests
open Sys2Proof.Machine

/-! ### Helpers -/

/-- The state a command leads to, and `State.reset` should it stop. -/
def after (i : Instr) (s : State) : State :=
  match exec i s with
  | .next t => t
  | .fault _ => State.reset
  | .refused _ => State.reset

/-- The ASCII bytes of a text. -/
def ascii (cs : List Char) : List Byte := cs.map fun c => BitVec.ofNat 8 c.toNat

/-- An engine right after reset, with the given lanes. -/
def lanes (bs : List Byte) : State := { State.reset with din := packBytes 64 bs }

/-- An engine that holds `n` bytes of "a" and has compressed nothing. -/
def holding (n : Nat) : State :=
  { State.reset with buf := Vector.replicate 64 0x61#8, left := BitVec.ofNat 7 n }

/-- An engine that has finished the empty message. -/
def finishedEngine : State := after (.finish false) State.reset

/-- KAT-1, the digest of the empty message. -/
def kat1 : List Byte :=
  [0xd4#8, 0x1d#8, 0x8c#8, 0xd9#8, 0x8f#8, 0x00#8, 0xb2#8, 0x04#8,
   0xe9#8, 0x80#8, 0x09#8, 0x98#8, 0xec#8, 0xf8#8, 0x42#8, 0x7e#8]

/-- KAT-3, the digest of "abc". -/
def kat3 : List Byte :=
  [0x90#8, 0x01#8, 0x50#8, 0x98#8, 0x3c#8, 0xd2#8, 0x4f#8, 0xb0#8,
   0xd6#8, 0x96#8, 0x3f#8, 0x7d#8, 0x28#8, 0xe1#8, 0x7f#8, 0x72#8]

/-- KAT-1 in hex. -/
def kat1Hex : List Byte := ascii "d41d8cd98f00b204e9800998ecf8427e".toList

/-! ### WellFormed: the one check refuses an ill-formed term (R74) -/

theorem test_wellFormed_refuses_65 : (Instr.process 65#7).wellFormed = false := by decide

theorem test_wellFormed_accepts_64 : (Instr.process 64#7).wellFormed = true := by decide

/-! ### Decode: fields OP, RSV, ARG written out from R70 and R72, one word per command -/

theorem test_decode_nop : decode (0b0000#4 ++ 0#20 ++ 0b00000000#8) = .ok .nop := by decide

theorem test_decode_init : decode (0b0001#4 ++ 0#20 ++ 0b00000000#8) = .ok .init := by decide

theorem test_decode_process :
    decode (0b0010#4 ++ 0#20 ++ 0b00101011#8) = .ok (.process 43#7) := by decide

theorem test_decode_finish_copy :
    decode (0b0011#4 ++ 0#20 ++ 0b00000001#8) = .ok (.finish true) := by decide

theorem test_decode_getDigest : decode (0b0100#4 ++ 0#20 ++ 0b00000000#8) = .ok .getDigest := by decide

theorem test_decode_getHex : decode (0b0101#4 ++ 0#20 ++ 0b00000000#8) = .ok .getHex := by decide

theorem test_decode_hexEncode :
    decode (0b0110#4 ++ 0#20 ++ 0b00100001#8) = .ok (.hexEncode 33#6) := by decide

theorem test_decode_hexDecode : decode (0b0111#4 ++ 0#20 ++ 0b00000000#8) = .ok .hexDecode := by decide

theorem test_decode_readStatus :
    decode (0b1000#4 ++ 0#20 ++ 0b00000000#8) = .ok .readStatus := by decide

theorem test_decode_clearStatus :
    decode (0b1001#4 ++ 0#20 ++ 0b00000000#8) = .ok .clearStatus := by decide

/-- R77, R204: reserved opcode, RSV bit, N = 65, ARG[7], FINISH's ARG[1], HEX_ENCODE's ARG[6]. -/
theorem test_decode_rejects :
    decode 0xA0000000#32 = .error .reservedOpcode ∧ decode 0x10000100#32 = .error .reservedBits
      ∧ decode 0x20000041#32 = .error .countTooLarge ∧ decode 0x20000080#32 = .error .argBits
      ∧ decode 0x30000002#32 = .error .argBits ∧ decode 0x60000040#32 = .error .argBits := by decide

/-- spec/opcode_table.json's numbering: bit 0 is the least significant bit of the word. -/
theorem test_decodeTableWord : decodeTableWord 32 0x60000021 = some (.hexEncode 33#6) := by decide

/-! ### Compression and the length accumulator -/

/-- FUNC-1, FUNC-4, FUNC-7, FUNC-9. -/
theorem test_auxFn :
    auxFn 0 0x12345678#32 0x9abcdef0#32 0x0fedcba9#32 = 0x1ffddff1#32
      ∧ auxFn 16 0x12345678#32 0x9abcdef0#32 0x0fedcba9#32 = 0x92345678#32
      ∧ auxFn 32 0x12345678#32 0x9abcdef0#32 0x0fedcba9#32 = 0x87654321#32
      ∧ auxFn 48 0x12345678#32 0x9abcdef0#32 0x0fedcba9#32 = 0x688aa88e#32 := by decide

/-- ROTL-1, ROTL-4. -/
theorem test_rotl32 :
    rotl32 0x80000000#32 7 = 0x00000040#32 ∧ rotl32 0xdeadbeef#32 23 = 0x77ef56df#32 := by decide

/-- R157's last column but two, rows 0, 16, 17, 32, 33, 48, 49 and 63: k(i), s(i). -/
theorem test_stepTable :
    [0, 16, 17, 32, 33, 48, 49, 63].map (fun i => (msgIndex i, shiftAmount i))
      = [(0, 7), (1, 5), (6, 9), (5, 4), (8, 11), (0, 6), (7, 10), (9, 21)] := by decide

/-- R157: sixty-four constants; T[0], T[63]. -/
theorem test_addConst :
    (addConstF ++ addConstG ++ addConstH ++ addConstI).length = 64
      ∧ addConst 0 = 0xD76AA478#32 ∧ addConst 63 = 0xEB86D391#32 := by decide

/-- STEP-1. -/
theorem test_roundStep :
    roundStep (messageWords (0x80#8 :: zeros 63)) 0 iv
      = { a := 0x10325476#32, b := 0xa5202774#32, c := 0xefcdab89#32, d := 0x98badcfe#32 } := by
  decide +kernel

/-- COMP-1: the words after the empty message's block. -/
theorem test_compressWords :
    compressWords iv (0x80#8 :: zeros 63)
      = { a := 0xd98c1dd4#32, b := 0x04b2008f#32, c := 0x980980e9#32, d := 0x7e42f8ec#32 } := by
  decide +kernel

/-- CNT-1, CNT-2. -/
theorem test_cntAdd :
    cnt (cntAdd 64 { State.reset with cntLo := 0xffffffc0#32 }) = 2 ^ 32
      ∧ cnt (cntAdd 64 { State.reset with cntHi := 0xffffffff#32, cntLo := 0xffffffff#32 }) = 0x3f := by
  decide

/-- FOLD-3, FOLD-8. -/
theorem test_bits :
    bitsHi 0#32 0x20000000#32 = 1#32 ∧ bitsLo 0x20000000#32 = 0#32
      ∧ bitsHi 0x9abcdef0#32 0x12345678#32 = 0xd5e6f780#32 ∧ bitsLo 0x12345678#32 = 0x91a2b3c0#32 := by
  decide

/-- BND-55, BND-56, BND-63: P. -/
theorem test_padAmount : padAmount 55 = 1 ∧ padAmount 56 = 64 ∧ padAmount 63 = 57 := by decide

/-! ### One command -/

/-- R106's example: PROCESS 3 of "abc" from reset. -/
theorem test_process_abc :
    (after (.process 3#7) (lanes (ascii "abc".toList))).left = 3#7
      ∧ (after (.process 3#7) (lanes (ascii "abc".toList))).buf.toList.take 3 = [0x61#8, 0x62#8, 0x63#8] := by
  decide +kernel

/-- ABS-11: LEFT 63 and a chunk of 64. -/
theorem test_process_fills :
    (after (.process 64#7) (holding 63)).left = 63#7 ∧ cnt (after (.process 64#7) (holding 63)) = 64 := by
  decide +kernel

/-- KAT-1: the empty message. -/
theorem test_finish_empty :
    (after (.finish true) State.reset).resp = kat1 ∧ cnt finishedEngine = 0x40 := by decide +kernel

/-- BND-56: two padding blocks. -/
theorem test_finish_two_blocks :
    hexEncode (after (.finish false) (holding 56)).digest.toList 32
      = ascii "3b0c8ac703f828b04c6c197006d17218".toList := by decide +kernel

/-- R117's example. -/
theorem test_getDigest : (after .getDigest finishedEngine).resp = kat1 := by decide +kernel

/-- R117: before FINISH the flag is set. -/
theorem test_getDigest_early : (after .getDigest State.reset).errNotFinished = true := by decide

/-- KAT-1 row 2. -/
theorem test_getHex : (after .getHex finishedEngine).resp = kat1Hex ++ [0x00#8] := by decide +kernel

/-- HEX-4, HEX-6. -/
theorem test_hexEncode :
    (after (.hexEncode 31#6) (lanes kat1)).resp = kat1Hex.take 31
      ∧ (after (.hexEncode 33#6) (lanes kat1)).resp = kat1Hex ++ [0x00#8] := by decide +kernel

/-- HEX-10. -/
theorem test_hexDecode : (after .hexDecode (lanes kat1Hex)).resp = kat1 := by decide +kernel

/-- HEX-11: upper case. -/
theorem test_hexDecode_upper :
    (after .hexDecode (lanes (ascii "D41D8CD98F00B204E9800998ECF8427E".toList))).errBadHex = true := by
  decide +kernel

/-- R202's example: a second FINISH. -/
theorem test_readStatus :
    (after .readStatus (after (.finish false) finishedEngine)).resp = [0x03#8] := by decide +kernel

/-- R203's example: STATUS 0x17. -/
theorem test_clearStatus :
    statusByte (after .clearStatus { finishedEngine with
      errFinished := true, errNotFinished := true, errIllegal := true }) = 0x01#8 := by decide +kernel

/-- R201's example: INIT after a finished digest starts the empty message. -/
theorem test_init : (after (.finish true) (after .init finishedEngine)).resp = kat1 := by decide +kernel

/-- R200. -/
theorem test_nop : after .nop State.reset = State.reset := by decide

/-- A word placed for the next step runs as the first command after reset. -/
theorem test_withFetchWord :
    step (State.reset.withFetchWord 32 0x20000003) = exec (.process 3#7) State.reset := rfl

/-- D25: after instance 0 has drawn bytes 0 to 15, an early GET_DIGEST of instance 1 draws 16 to 31. -/
theorem test_instances_draw_apart :
    (match stepEngine 1 { states := [State.reset, State.reset.withFetchWord 32 0x40000000], draws := 16 } with
      | .next es => (es.draws, es.states[1]?.map State.resp)
      | .fault _ => (0, none)
      | .refused _ => (0, none)) = (32, some (unspecAt 16 16)) := rfl

/-! ### The assembly syntax -/

/-- R106's example line, with a comment. -/
theorem test_assemble_process :
    assembleLine "PROCESS 3, din=\"abc\" ; chunk".toList
      = some [.command 0x20000003#32 (packBytes 64 [0x61#8, 0x62#8, 0x63#8])] := by decide +kernel

/-- R81: `.word` writes an illegal word, and FINISH COPY its own. -/
theorem test_assemble_word :
    assembleLine ".word A0000000".toList = some [.command 0xA0000000#32 (packBytes 64 [])]
      ∧ assembleLine "FINISH COPY".toList = some [.command 0x30000001#32 (packBytes 64 [])] := by
  decide +kernel

/-- Log entry 13: a blank or comment-only line stands for no command. -/
theorem test_assemble_blank :
    assembleLine "  ".toList = some [] ∧ assembleLine "; NOP".toList = some [] := by decide +kernel

/-- Log entry 13: digits of either case, and at most eight. -/
theorem test_assemble_digits :
    wordValue "0xDeadBeef".toList = some 0xDEADBEEF#32 ∧ wordValue "0012345678".toList = none
      ∧ wordValue "12g4".toList = none ∧ wordValue [] = none := by decide +kernel

/-- R82: HASH of "abc" is INIT, one PROCESS, FINISH COPY, GET_HEX; KAT-3. -/
theorem test_hashEvents :
    (hashEvents (ascii "abc".toList)).map (fun e => match e with
      | .command w _ => w
      | .reset => 0xFFFFFFFF#32)
        = [0x10000000#32, 0x20000003#32, 0x30000001#32, 0x50000000#32]
      ∧ md5 (ascii "abc".toList) = kat3 := by decide +kernel

/-! ### Witnesses: what meets each statement's hypotheses -/

theorem witness_reset_pending : ({ State.reset with host := [.reset] } : State).host = .reset :: [] := rfl

theorem witness_invariant_idle : Invariant State.reset ∧ step State.reset = .next State.reset := by
  refine ⟨?_, rfl⟩
  constructor <;> decide

theorem witness_invariant_finished :
    Invariant finishedEngine ∧ ∃ t, step finishedEngine = .next t := by
  refine ⟨?_, finishedEngine, rfl⟩
  constructor <;> decide +kernel

theorem witness_invariant_process :
    Invariant (holding 63) ∧ ∃ t, exec (.process 64#7) (holding 63) = .next t := by
  refine ⟨?_, _, rfl⟩
  constructor <;> decide

theorem witness_decode_encode :
    (Instr.process 0#7).wellFormed = true ∧ (Instr.process 64#7).wellFormed = true
      ∧ (Instr.hexEncode 63#6).wellFormed = true := by decide

theorem witness_decode_ok : decode 0x20000040#32 = .ok (.process 64#7) := by decide

theorem witness_illegal :
    legal 0x20000041#32 = false ∧ legal 0xFFFFFFFF#32 = false ∧ legal 0x00000001#32 = false := by decide

theorem witness_step_runs :
    ({ State.reset with host := [commandEvent .nop []] } : State).host
        = .command 0x00000000#32 (packBytes 64 []) :: []
      ∧ decode 0x00000000#32 = .ok .nop ∧ decodeTableWord 32 0x30000001 = some (.finish true) := by
  refine ⟨rfl, ?_, ?_⟩ <;> decide

theorem witness_step_waits : State.reset.host = [] := rfl

theorem witness_one_cause :
    ∃ t, transact 0x40000000#32 State.reset.din State.reset = .next t
      ∧ errFlag .notFinished State.reset = false ∧ errFlag .notFinished t = true :=
  ⟨_, rfl, rfl, rfl⟩

theorem witness_sticky :
    ∃ t, transact 0x00000000#32 State.reset.din (setErr .badHex State.reset) = .next t
      ∧ errFlag .badHex (setErr .badHex State.reset) = true ∧ ErrFlag.illegal ≠ ErrFlag.badHex :=
  ⟨_, rfl, rfl, by decide⟩

theorem witness_status_bits : 5 ≤ 5 ∧ 5 ≤ 7 := by decide

theorem witness_process :
    (64#7).toNat ≤ 64 ∧ State.reset.finished = false ∧ finishedEngine.finished = true := by
  refine ⟨?_, rfl, ?_⟩ <;> decide +kernel

theorem witness_process_short :
    (holding 0).finished = false ∧ (holding 0).left.toNat + (63#7).toNat < 64
      ∧ (holding 63).left.toNat + (0#7).toNat < 64 := by decide

theorem witness_process_completes :
    (holding 63).finished = false ∧ (64#7).toNat ≤ 64 ∧ 0 < (holding 63).left.toNat
      ∧ (holding 63).left.toNat ≤ 63 ∧ 64 ≤ (holding 63).left.toNat + (64#7).toNat := by decide

theorem witness_process_completes_exactly :
    (holding 1).finished = false ∧ (63#7).toNat ≤ 64 ∧ 0 < (holding 1).left.toNat
      ∧ (holding 1).left.toNat ≤ 63 ∧ 64 ≤ (holding 1).left.toNat + (63#7).toNat := by decide

theorem witness_process_whole : State.reset.finished = false ∧ State.reset.left = 0#7 := ⟨rfl, rfl⟩

/-- For the four statements on ProcessChunk and the one on padding. -/
theorem witness_left :
    (holding 0).left.toNat ≤ 63 ∧ (holding 55).left.toNat ≤ 55 ∧ (holding 56).left.toNat ≤ 63
      ∧ (holding 63).left.toNat ≤ 63 := by decide

theorem witness_finish_finished : finishedEngine.finished = true := by decide +kernel

theorem witness_finish_one_block :
    (holding 55).finished = false ∧ (holding 55).left.toNat ≤ 55
      ∧ (holding 0).finished = false ∧ (holding 0).left.toNat ≤ 55 := by decide

theorem witness_finish_two_blocks :
    (holding 56).finished = false ∧ 56 ≤ (holding 56).left.toNat ∧ (holding 56).left.toNat ≤ 63
      ∧ (holding 63).finished = false ∧ 56 ≤ (holding 63).left.toNat
      ∧ (holding 63).left.toNat ≤ 63 := by decide

theorem witness_queries_finished :
    finishedEngine.finished = true ∧ Invariant finishedEngine ∧ State.reset.finished = false :=
  ⟨witness_finish_finished, witness_invariant_finished.1, rfl⟩

theorem witness_queries :
    finishedEngine.finished = true ∧ Instr.getHex ∈ [Instr.getDigest, Instr.getHex, Instr.readStatus]
      ∧ ∃ t, exec .getHex finishedEngine = .next t := by
  refine ⟨witness_finish_finished, by decide, ?_⟩
  rw [exec, execGetHex, if_pos witness_finish_finished]
  exact ⟨_, rfl⟩

theorem witness_hexEncode :
    kat1.length = 16 ∧ (15 < 16 ∧ 2 * 15 < 31) ∧ (15 < 16 ∧ 2 * 15 + 1 < 32) ∧ 33 ≤ 33 := by decide

/-- Each end of each range of R183, and the bytes next to them. -/
theorem witness_hexVal :
    (0x30 ≤ (0x30#8).toNat ∧ (0x39#8).toNat ≤ 0x39) ∧ (0x61 ≤ (0x61#8).toNat ∧ (0x66#8).toNat ≤ 0x66)
      ∧ ((0x2F#8).toNat < 0x30 ∧ 0x39 < (0x3A#8).toNat ∧ (0x60#8).toNat < 0x61
        ∧ 0x66 < (0x67#8).toNat) := by decide

theorem witness_hexDecode_valid :
    ∀ j, (h : j < 32) → hexVal (lanes kat1Hex).din[j] ≠ none := by decide +kernel

theorem witness_hexDecode_nibbles :
    hexVal (lanes kat1Hex).din[0] = some 13#4 ∧ hexVal (lanes kat1Hex).din[1] = some 4#4 := by
  decide +kernel

/-- HEX-13: 0x00 at position 31. -/
theorem witness_hexDecode_invalid :
    ∃ j, ∃ h : j < 32, hexVal (lanes (kat1Hex.take 31)).din[j] = none := by decide +kernel

theorem witness_roundtrip_digest : kat1.length = 16 := rfl

theorem witness_roundtrip_text : kat1Hex.length = 32 ∧ hexDecode kat1Hex = some kat1 := by
  decide +kernel

/-- One state open, one finished, on the same lanes. -/
theorem witness_codec :
    (lanes kat1Hex).din = { finishedEngine with din := (lanes kat1Hex).din }.din
      ∧ (∃ t, exec .hexDecode (lanes kat1Hex) = .next t)
      ∧ (∃ v, exec .hexDecode { finishedEngine with din := (lanes kat1Hex).din } = .next v)
      ∧ hexDecode ((lanes kat1Hex).din.toList.take 32) ≠ none := by
  refine ⟨rfl, ?_, ?_, by decide +kernel⟩ <;>
  · rw [exec, execHexDecode]
    split <;> exact ⟨_, rfl⟩

theorem witness_rotation : (1 ≤ 1 ∧ 1 ≤ 31) ∧ (1 ≤ 31 ∧ 31 ≤ 31) ∧ 31 < 32 ∧ 63 < 64 := by decide

/-- The first and last step of each group. -/
theorem witness_groups :
    (0 < 16 ∧ 15 < 16) ∧ (16 ≤ 16 ∧ 31 < 32) ∧ (32 ≤ 32 ∧ 47 < 48) ∧ (48 ≤ 48 ∧ 63 < 64)
      ∧ 3 < 4 ∧ 15 < 16 := by decide

theorem witness_block : (0x80#8 :: zeros 63).length = 64 ∧ 15 < 16 := by decide

theorem witness_cntAdd : 0 ≤ 64 ∧ 64 ≤ 64 := by decide

theorem witness_represents_empty : Represents [] State.reset ∧ (64#7).toNat ≤ 64 := by
  refine ⟨?_, by decide⟩
  constructor <;> decide

/-- A message of one whole block and one byte more. -/
theorem witness_represents_65 :
    Represents (List.replicate 65 0x61#8)
      { holding 1 with acc := compressWords iv (List.replicate 64 0x61#8), cntLo := 64#32 } := by
  constructor <;> decide +kernel

theorem witness_command_sequence :
    (∀ c ∈ [zeros 64, [], ascii "abc".toList], c.length ≤ 64)
      ∧ ∃ s : State, s.host = commandEvent .init [] ::
          ([zeros 64, [], ascii "abc".toList].map processEvent ++ commandEvent (.finish true) [] :: []) :=
  ⟨by decide, { State.reset with host := _ }, rfl⟩

theorem witness_other_commands :
    Represents [] State.reset
      ∧ (∀ i, decode 0xA0000000#32 = .ok i → i ≠ .init ∧ (∀ n, i ≠ .process n) ∧ ∀ copy, i ≠ .finish copy)
      ∧ ∃ t, transact 0xA0000000#32 State.reset.din State.reset = .next t := by
  refine ⟨witness_represents_empty.1, ?_, _, rfl⟩
  intro i h
  rw [show decode 0xA0000000#32 = .error .reservedOpcode by decide] at h
  cases h

theorem witness_absorb : 1 < ((zeros 65).length - 1) / 64 + 1 := by decide

/-- Lane 3 changed, which PROCESS 3 does not read. -/
theorem witness_unread_lanes :
    (∀ j, (h : j < 64) → j < lanesRead (.process 3#7) →
        (packBytes 64 [0x61#8, 0x62#8, 0x63#8, 0xFF#8])[j] = (lanes [0x61#8, 0x62#8, 0x63#8]).din[j])
      ∧ ∃ t, exec (.process 3#7) (lanes [0x61#8, 0x62#8, 0x63#8]) = .next t := by
  refine ⟨by decide +kernel, _, rfl⟩

theorem witness_stale :
    (holding 3).left.toNat ≤ 63
      ∧ AgreeButStale (holding 3) { holding 3 with buf := packBytes 64 [0x61#8, 0x61#8, 0x61#8] }
      ∧ (∃ t, transact 0x30000001#32 State.reset.din (holding 3) = .next t) := by
  refine ⟨by decide, ⟨rfl, by decide +kernel⟩, _, rfl⟩

theorem witness_only_three :
    Instr.getDigest ≠ .init ∧ (∀ n, Instr.getDigest ≠ .process n) ∧ (∀ copy, Instr.getDigest ≠ .finish copy)
      ∧ ∃ t, exec .getDigest State.reset = .next t := by
  refine ⟨by simp, by simp, by simp, _, rfl⟩

theorem witness_frozen :
    Instr.process 64#7 ≠ .init ∧ finishedEngine.finished = true
      ∧ ∃ t, exec (.process 64#7) finishedEngine = .next t := by
  refine ⟨by simp, witness_finish_finished, ?_⟩
  rw [exec, execProcess, if_neg (by decide), if_pos witness_finish_finished]
  exact ⟨_, rfl⟩

theorem witness_digest_stays :
    finishedEngine.finished = true
      ∧ (∀ e ∈ [commandEvent (.process 64#7) [], commandEvent .nop []], keepsDigest e = true) := by
  decide +kernel

theorem witness_instances :
    (∃ es', stepEngine 1 (resetEngines 2) = .next es') ∧ (0 : Nat) ≠ 1
      ∧ State.reset ∈ (resetEngines 2).states ∧ (resetEngines 2).states[1]? = some State.reset :=
  ⟨⟨_, rfl⟩, by decide, by decide, rfl⟩

end Sys2Proof.Tests
end

section
/-!
PROOFS. The state family: a decoded word is the word of its command, what a command does to the error
flags, and the STATUS byte.
-/
namespace Sys2Proof

/-! ### A decoded word is the word of its command -/

/-- R70: the three fields make up the word. -/
theorem word_eq_of_fields {v w : Word} (hop : cmdOp v = cmdOp w) (hrsv : cmdRsv v = cmdRsv w)
    (harg : cmdArg v = cmdArg w) : v = w := by
  have concat : ∀ x : Word, cmdOp x ++ cmdRsv x ++ cmdArg x = x := by
    intro x
    rw [cmdOp, cmdRsv, cmdArg, BitVec.extractLsb'_append_extractLsb'_eq_extractLsb' (by rfl),
      BitVec.extractLsb'_append_extractLsb'_eq_extractLsb' (by rfl)]
    exact BitVec.extractLsb'_eq_self
  rw [← concat v, ← concat w, hop, hrsv, harg]

/-- R73. -/
theorem decodeNoArg_ok {arg : Byte} {i j : Instr} (h : decodeNoArg arg i = .ok j) :
    arg = 0x00#8 ∧ j = i := by
  rw [decodeNoArg] at h
  split at h
  · next harg =>
    cases h
    exact ⟨harg, rfl⟩
  · cases h

/-- R74. -/
theorem decodeProcess_ok {arg : Byte} {i : Instr} (h : decodeProcess arg = .ok i) :
    arg.extractLsb' 7 1 = 0#1 ∧ (argN arg).toNat ≤ 64 ∧ i = .process (argN arg) := by
  rw [decodeProcess] at h
  split at h
  · cases h
  · next hbit =>
    split at h
    · next hn =>
      cases h
      exact ⟨not_not.1 hbit, hn, rfl⟩
    · cases h

/-- R75. -/
theorem decodeFinish_ok {arg : Byte} {i : Instr} (h : decodeFinish arg = .ok i) :
    arg.extractLsb' 1 7 = 0#7 ∧ i = .finish (argCopy arg) := by
  rw [decodeFinish] at h
  split at h
  · next hbits =>
    cases h
    exact ⟨hbits, rfl⟩
  · cases h

/-- R76. -/
theorem decodeHexEncode_ok {arg : Byte} {i : Instr} (h : decodeHexEncode arg = .ok i) :
    arg.extractLsb' 6 2 = 0#2 ∧ i = .hexEncode (argCap arg) := by
  rw [decodeHexEncode] at h
  split at h
  · next hbits =>
    cases h
    exact ⟨hbits, rfl⟩
  · cases h

/-- The ARG field of a PROCESS word. -/
theorem cmdArg_encode_process (arg : Byte) (h : arg.extractLsb' 7 1 = 0#1) :
    cmdArg (encode (.process (argN arg))) = arg := by
  revert arg
  decide

/-- The ARG field of a FINISH word. -/
theorem cmdArg_encode_finish (arg : Byte) (h : arg.extractLsb' 1 7 = 0#7) :
    cmdArg (encode (.finish (argCopy arg))) = arg := by
  revert arg
  decide

/-- The ARG field of a HEX_ENCODE word. -/
theorem cmdArg_encode_hexEncode (arg : Byte) (h : arg.extractLsb' 6 2 = 0#2) :
    cmdArg (encode (.hexEncode (argCap arg))) = arg := by
  revert arg
  decide

/-- R81: RSV is 0 in every command's word. -/
theorem cmdRsv_encode (i : Instr) : cmdRsv (encode i) = 0#20 := by
  cases i with
  | process n => revert n; decide
  | finish copy => revert copy; decide
  | hexEncode cap => revert cap; decide
  | nop | init | getDigest | getHex | hexDecode | readStatus | clearStatus => decide

/-- R72: the opcode and ARG fields of a decoded command's word are those decoded. -/
theorem fields_of_decodeOp {op : BitVec 4} {arg : Byte} {i : Instr} (h : decodeOp op arg = .ok i) :
    cmdOp (encode i) = op ∧ cmdArg (encode i) = arg := by
  have noArg : ∀ j, decodeNoArg arg j = .ok i → (cmdOp (encode j)).toNat = op.toNat →
      cmdArg (encode j) = 0x00#8 → cmdOp (encode i) = op ∧ cmdArg (encode i) = arg := by
    intro j hj hop harg
    obtain ⟨rfl, rfl⟩ := decodeNoArg_ok hj
    exact ⟨BitVec.eq_of_toNat_eq hop, harg⟩
  rw [decodeOp] at h
  split at h
  · next hop => exact noArg .nop h hop.symm rfl
  · next hop => exact noArg .init h hop.symm rfl
  · next hop =>
    obtain ⟨hbit, -, rfl⟩ := decodeProcess_ok h
    have hop' : ∀ n, cmdOp (encode (.process n)) = 2#4 := by decide
    exact ⟨by rw [hop']; exact BitVec.eq_of_toNat_eq hop.symm, cmdArg_encode_process arg hbit⟩
  · next hop =>
    obtain ⟨hbits, rfl⟩ := decodeFinish_ok h
    have hop' : ∀ copy, cmdOp (encode (.finish copy)) = 3#4 := by decide
    exact ⟨by rw [hop']; exact BitVec.eq_of_toNat_eq hop.symm, cmdArg_encode_finish arg hbits⟩
  · next hop => exact noArg .getDigest h hop.symm rfl
  · next hop => exact noArg .getHex h hop.symm rfl
  · next hop =>
    obtain ⟨hbits, rfl⟩ := decodeHexEncode_ok h
    have hop' : ∀ cap, cmdOp (encode (.hexEncode cap)) = 6#4 := by decide
    exact ⟨by rw [hop']; exact BitVec.eq_of_toNat_eq hop.symm, cmdArg_encode_hexEncode arg hbits⟩
  · next hop => exact noArg .hexDecode h hop.symm rfl
  · next hop => exact noArg .readStatus h hop.symm rfl
  · next hop => exact noArg .clearStatus h hop.symm rfl
  · cases h

/-- R80: only its own word decodes to a command. -/
theorem encode_of_decode {w : Word} {i : Instr} (h : decode w = .ok i) : encode i = w := by
  rw [decode] at h
  split at h
  · cases h
  · next hrsv =>
    obtain ⟨hop, harg⟩ := fields_of_decodeOp h
    exact word_eq_of_fields hop ((cmdRsv_encode i).trans (not_not.1 hrsv).symm) harg

end Sys2Proof

namespace Sys2Proof.Machine

/-! ### What each operation does to the error flags -/

@[simp] theorem errFlag_respond (f : ErrFlag) (r : List Byte) (s : State) :
    errFlag f (respond r s) = errFlag f s := by
  cases f <;> rfl

@[simp] theorem errFlag_respondUnspec (f : ErrFlag) (n : Nat) (s : State) :
    errFlag f (respondUnspec n s) = errFlag f s := by
  cases f <;> rfl

@[simp] theorem errFlag_illegal (f : ErrFlag) (s : State) :
    errFlag f (illegal s) = errFlag f (setErr .illegal s) := by
  rw [illegal, errFlag_respond]

/-- The lanes of a transaction are no flag. -/
@[simp] theorem errFlag_withDin (f : ErrFlag) (din : Vector Byte 64) (s : State) :
    errFlag f { s with din := din } = errFlag f s := by
  cases f <;> rfl

@[simp] theorem errFlag_processChunk (f : ErrFlag) (data : List Byte) (s : State) :
    errFlag f (processChunk data s) = errFlag f s := by
  rw [processChunk_frame]
  cases f <;> rfl

@[simp] theorem errFlag_finalise (f : ErrFlag) (s : State) :
    errFlag f (finalise s) = errFlag f s := by
  rw [finalise_frame]
  cases f <;> rfl

/-- Every command but INIT and CLEAR_STATUS keeps the flags, or acts on them as one `setErr`. -/
theorem exec_errFlag_cases {i : Instr} {s t : State} (h : exec i s = .next t)
    (hinit : i ≠ .init) (hclear : i ≠ .clearStatus) :
    (∀ f, errFlag f t = errFlag f s) ∨ ∃ g, ∀ f, errFlag f t = errFlag f (setErr g s) := by
  cases i with
  | init => exact absurd rfl hinit
  | clearStatus => exact absurd rfl hclear
  | process n =>
    rcases execProcess_cases h with ⟨-, rfl⟩ | ⟨-, -, rfl⟩ | ⟨-, -, rfl⟩
    · exact .inr ⟨.illegal, fun f => errFlag_illegal f s⟩
    · exact .inr ⟨.finished, fun f => errFlag_respond f _ _⟩
    · exact .inl fun f => by simp
  | finish copy =>
    rcases execFinish_cases h with ⟨-, rfl⟩ | ⟨-, rfl⟩
    · exact .inr ⟨.finished, fun f => errFlag_respond f _ _⟩
    · exact .inl fun f => by simp
  | getDigest | getHex =>
    simp only [exec, execGetDigest, execGetHex] at h
    split at h <;> cases h
    · exact .inl fun f => errFlag_respond f _ _
    · exact .inr ⟨.notFinished, fun f => errFlag_respondUnspec f _ _⟩
  | hexDecode =>
    rcases execHexDecode_cases h with ⟨-, rfl⟩ | ⟨out, -, rfl⟩
    · exact .inr ⟨.badHex, fun f => errFlag_respondUnspec f _ _⟩
    · exact .inl fun f => errFlag_respond f _ _
  | nop | hexEncode | readStatus =>
    cases h
    exact .inl fun f => errFlag_respond f _ _

/-- The same for every command word but those of INIT and CLEAR_STATUS, legal or not. -/
theorem transact_errFlag_cases {w : Word} {din : Vector Byte 64} {s t : State}
    (h : transact w din s = .next t) (hinit : w ≠ encode .init) (hclear : w ≠ encode .clearStatus) :
    (∀ f, errFlag f t = errFlag f s) ∨ ∃ g, ∀ f, errFlag f t = errFlag f (setErr g s) := by
  rcases transact_cases h with ⟨i, hw, hi⟩ | ⟨-, rfl⟩
  · have hword := encode_of_decode hw
    simpa using exec_errFlag_cases hi (by rintro rfl; exact hinit hword.symm)
      (by rintro rfl; exact hclear hword.symm)
  · exact .inr ⟨.illegal, fun f => by simp⟩

theorem sameEngine_setErr (f : ErrFlag) (s : State) : SameEngine s (setErr f s) := by
  constructor <;> simp

theorem samePort_setErr (f : ErrFlag) (s : State) : SamePort s (setErr f s) := by
  constructor <;> simp

/-- Settles O13: a command word acts on the flags as `setErr` or not at all, unless it is INIT's or
CLEAR_STATUS's. -/
theorem flagsAreSticky : Obligations.FlagsAreSticky := by
  refine ⟨fun f s => ⟨by simp, fun g hg => by simp [hg], sameEngine_setErr f s, samePort_setErr f s⟩, ?_⟩
  intro f w din s t h hset hinit hclear
  rcases transact_errFlag_cases h hinit hclear with hsame | ⟨g, hg⟩
  · rw [hsame, hset]
  · rw [hg, errFlag_setErr, hset, Bool.or_true]

/-! ### The STATUS byte -/

/-- A widened bit shifted to place n: bit n is that bit, every other one is 0. -/
theorem getLsbD_zextBit_shiftLeft (b : Bool) {n : Nat} (hn : n < 8) (k : Nat) :
    (zextBit b <<< n).getLsbD k = (decide (k = n) && b) := by
  simp only [zextBit, BitVec.getLsbD_shiftLeft, BitVec.getLsbD_setWidth, BitVec.getLsbD_ofBool]
  rcases lt_trichotomy k n with h | rfl | h
  · simp [h, h.ne]
  · simp [hn]
  · simp [h.ne', Nat.sub_ne_zero_of_lt h]

/-- R30: each bit of STATUS is that of one summand, the bits above bit 4 are 0. -/
theorem getLsbD_statusByte (s : State) (k : Nat) :
    (statusByte s).getLsbD k = (decide (k = 4) && s.errIllegal || decide (k = 3) && s.errBadHex
      || decide (k = 2) && s.errNotFinished || decide (k = 1) && s.errFinished
      || decide (k = 0) && s.finished) := by
  have hbit0 := getLsbD_zextBit_shiftLeft s.finished (n := 0) (by decide) k
  rw [BitVec.shiftLeft_zero] at hbit0
  simp only [statusByte, BitVec.getLsbD_or]
  rw [hbit0, getLsbD_zextBit_shiftLeft _ (by decide), getLsbD_zextBit_shiftLeft _ (by decide),
    getLsbD_zextBit_shiftLeft _ (by decide), getLsbD_zextBit_shiftLeft _ (by decide)]

/-- Settles O16, reading each bit off `getLsbD_statusByte`. -/
theorem readStatusAnswersTheStatusByte : Obligations.ReadStatusAnswersTheStatusByte := by
  intro s
  refine ⟨rfl, ?_, ?_, ?_, ?_, ?_, fun k hk => ?_⟩
  case refine_6 =>
    have hne : ∀ n ≤ 4, k ≠ n := by omega
    simp [getLsbD_statusByte, hne]
  all_goals
    rw [getLsbD_statusByte]
    simp

end Sys2Proof.Machine
end

section
/-!
PROOFS. The memory family: the value of a little-endian word, and the lanes that a command does not read.
-/
namespace Sys2Proof.Machine

/-! ### Little-endian words -/

/-- A byte placed above a word that is below its place. -/
theorem toNat_or_byte_shiftLeft {x : Word} {k : Nat} (b : Byte) (hx : x.toNat < 2 ^ k)
    (hk : k + 8 ≤ 32) :
    (x ||| b.zeroExtend 32 <<< k).toNat = x.toNat + 2 ^ k * b.toNat := by
  have hplaced : 2 ^ k * b.toNat < 2 ^ 32 := calc
    2 ^ k * b.toNat < 2 ^ k * 2 ^ 8 := Nat.mul_lt_mul_of_pos_left b.isLt (Nat.two_pow_pos k)
    _ = 2 ^ (k + 8) := (Nat.pow_add 2 k 8).symm
    _ ≤ 2 ^ 32 := Nat.pow_le_pow_right (by decide) hk
  have hshift : (b.zeroExtend 32 <<< k).toNat = 2 ^ k * b.toNat := by
    rw [BitVec.toNat_shiftLeft, BitVec.toNat_setWidth_of_le (by decide), Nat.shiftLeft_eq,
      Nat.mul_comm, Nat.mod_eq_of_lt hplaced]
  rw [BitVec.toNat_or, hshift, Nat.or_comm, ← Nat.two_pow_add_eq_or_of_lt hx, Nat.add_comm]

/-- R53: le32 has the byte at the offset as its least significant one. -/
theorem le32_toNat (s : List Byte) (o : Nat) :
    (le32 s o).toNat = (byteAt s o).toNat + 2 ^ 8 * (byteAt s (o + 1)).toNat
      + 2 ^ 16 * (byteAt s (o + 2)).toNat + 2 ^ 24 * (byteAt s (o + 3)).toNat := by
  have b0 := (byteAt s o).isLt
  have b1 := (byteAt s (o + 1)).isLt
  have b2 := (byteAt s (o + 2)).isLt
  have h0 : ((byteAt s o).zeroExtend 32).toNat = (byteAt s o).toNat :=
    BitVec.toNat_setWidth_of_le (by decide)
  have h1 := toNat_or_byte_shiftLeft (k := 8) (byteAt s (o + 1)) (by rw [h0]; exact b0) (by decide)
  have h2 := toNat_or_byte_shiftLeft (k := 16) (byteAt s (o + 2)) (by rw [h1, h0]; omega) (by decide)
  rw [le32, toNat_or_byte_shiftLeft (byteAt s (o + 3)) (by rw [h2, h1, h0]; omega) (by decide),
    h2, h1, h0]

/-- R142. -/
theorem messageWords_getD (blk : List Byte) {j : Nat} (hj : j < 16) :
    (messageWords blk).getD j 0#32 = le32 blk (4 * j) := by
  simp [messageWords, hj]

/-- Settles O45: message word j is the little-endian word at byte 4j. -/
theorem messageWordsAreLittleEndian : Obligations.MessageWordsAreLittleEndian := by
  intro blk j _ hj
  rw [messageWords_getD blk hj, le32_toNat]

/-! ### The stream and FINISH do not look at the lanes

Each operation on a state with other lanes gives its usual result with those lanes. The rewrites below name
the lanes, since any state matches `{ s with din := _ }`.
-/

theorem compress_withDin (blk : List Byte) (d : Vector Byte 64) (s : State) :
    compress blk { s with din := d } = { compress blk s with din := d } := by
  rw [compress_eq, compress_eq]
  simp only [cntAdd_cntLo, cntAdd_cntHi]

theorem absorbBlocks_withDin (k : Nat) (data : List Byte) (d : Vector Byte 64) (s : State) :
    absorbBlocks k data { s with din := d }
      = ((absorbBlocks k data s).1, { (absorbBlocks k data s).2 with din := d }) := by
  induction k generalizing data s with
  | zero => rfl
  | succ k ih =>
    rw [absorbBlocks, absorbBlocks]
    split
    · rw [compress_withDin _ d, ih]
    · rfl

theorem absorbRest_withDin (data : List Byte) (d : Vector Byte 64) (s : State) :
    absorbRest data { s with din := d } = { absorbRest data s with din := d } := by
  rw [absorbRest, absorbRest, absorbBlocks_withDin _ _ d, appendTail, appendTail]

theorem completeBlock_withDin (data : List Byte) (d : Vector Byte 64) (s : State) :
    completeBlock data { s with din := d } = { completeBlock data s with din := d } := by
  rw [completeBlock_eq, completeBlock_eq]
  simp only [cntAdd_cntLo, cntAdd_cntHi]

theorem processChunk_withDin (data : List Byte) (d : Vector Byte 64) (s : State) :
    processChunk data { s with din := d } = { processChunk data s with din := d } := by
  rw [processChunk, processChunk]
  split
  · simp only [completeBlock_withDin _ d, absorbRest_withDin _ d]
  · rw [absorbRest_withDin _ d]

theorem compressTail_withDin (tail : List Byte) (d : Vector Byte 64) (s : State) :
    compressTail tail { s with din := d } = { compressTail tail s with din := d } := by
  rw [compressTail, compressTail]
  split <;> simp only [compress_withDin _ d]

theorem finalise_withDin (d : Vector Byte 64) (s : State) :
    finalise { s with din := d } = { finalise s with din := d } := by
  have hcnt : cntAdd s.left.toNat { s with din := d } = { cntAdd s.left.toNat s with din := d } := by
    rw [cntAdd, cntAdd]
  have htail : paddedTail { cntAdd s.left.toNat s with din := d }
      = paddedTail (cntAdd s.left.toNat s) := by
    rw [paddedTail, paddedTail]
  simp only [finalise, hcnt, htail, compressTail_withDin _ d, storeDigest]

/-! ### Lanes a command does not read -/

/-- R51: only the first n lanes are in DIN[0..n). -/
theorem dinLanes_withDin {n : Nat} {d : Vector Byte 64} {s : State}
    (h : ∀ j, (hj : j < 64) → j < n → d[j] = s.din[j]) :
    dinLanes n { s with din := d } = dinLanes n s := by
  apply List.ext_getElem
  · simp [dinLanes]
  · intro j hj _
    simp only [dinLanes, List.length_take, Vector.length_toList, lt_min_iff] at hj
    simpa [dinLanes] using h j hj.2 hj.1

/-- Settles O55: the lanes read are the same list in both runs, and no operation looks at the others. -/
theorem unreadLanesHaveNoEffect : Obligations.UnreadLanesHaveNoEffect := by
  intro i s t d hread h
  cases i with
  | process n =>
    rcases execProcess_cases h with ⟨hn, rfl⟩ | ⟨hn, hf, rfl⟩ | ⟨hn, hf, rfl⟩
    · rw [exec, execProcess, if_pos hn]
      rfl
    · rw [exec, execProcess, if_neg (Nat.not_lt.2 hn), if_pos hf]
      rfl
    · rw [exec, execProcess, if_neg (Nat.not_lt.2 hn), if_neg (by simp [hf]),
        dinLanes_withDin (n := n.toNat) hread, processChunk_withDin _ d]
      rfl
  | finish copy =>
    rcases execFinish_cases h with ⟨hf, rfl⟩ | ⟨hf, rfl⟩
    · rw [exec, execFinish, if_pos hf]
      rfl
    · rw [exec, execFinish, if_neg (by simp [hf]), finalise_withDin d]
      rfl
  | getDigest | getHex =>
    simp only [exec, execGetDigest, execGetHex] at h ⊢
    split at h <;> cases h
    · next hf =>
      rw [if_pos hf]
      rfl
    · next hf =>
      rw [if_neg hf]
      rfl
  | hexEncode cap =>
    cases h
    rw [exec, execHexEncode, dinLanes_withDin (n := 16) hread]
    rfl
  | hexDecode =>
    have hlanes := dinLanes_withDin (n := 32) hread
    rcases execHexDecode_cases h with ⟨hd, rfl⟩ | ⟨out, hd, rfl⟩ <;>
      (rw [exec, execHexDecode, hlanes, hd]; rfl)
  | nop | init | readStatus | clearStatus =>
    cases h
    rfl

end Sys2Proof.Machine
end

section
/-!
PROOFS. The encoding family: the words that decode, the field values `legal` admits, and what a word that
is not legal does.
-/
namespace Sys2Proof

/-! ### The words that decode -/

/-- R73. -/
theorem exists_decodeNoArg_iff (arg : Byte) (i : Instr) :
    (∃ j, decodeNoArg arg i = .ok j) ↔ arg = 0x00#8 := by
  constructor
  · rintro ⟨j, h⟩
    exact (decodeNoArg_ok h).1
  · intro h
    exact ⟨i, if_pos h⟩

/-- R74. -/
theorem exists_decodeProcess_iff (arg : Byte) :
    (∃ i, decodeProcess arg = .ok i) ↔ arg.extractLsb' 7 1 = 0#1 ∧ (argN arg).toNat ≤ 64 := by
  constructor
  · rintro ⟨i, h⟩
    obtain ⟨hbit, hn, -⟩ := decodeProcess_ok h
    exact ⟨hbit, hn⟩
  · rintro ⟨hbit, hn⟩
    exact ⟨_, (if_neg (not_not.2 hbit)).trans (if_pos hn)⟩

/-- R75. -/
theorem exists_decodeFinish_iff (arg : Byte) :
    (∃ i, decodeFinish arg = .ok i) ↔ arg.extractLsb' 1 7 = 0#7 := by
  constructor
  · rintro ⟨i, h⟩
    exact (decodeFinish_ok h).1
  · intro h
    exact ⟨_, if_pos h⟩

/-- R76. -/
theorem exists_decodeHexEncode_iff (arg : Byte) :
    (∃ i, decodeHexEncode arg = .ok i) ↔ arg.extractLsb' 6 2 = 0#2 := by
  constructor
  · rintro ⟨i, h⟩
    exact (decodeHexEncode_ok h).1
  · intro h
    exact ⟨_, if_pos h⟩

/-- R77, R80: each opcode's decoder accepts the operands that opcode's condition admits. -/
theorem legalArg_iff_exists_decodeOp (op : BitVec 4) (arg : Byte) :
    legalArg op arg = true ↔ ∃ i, decodeOp op arg = .ok i := by
  rw [legalArg, decodeOp]
  generalize op.toNat = n
  split
  case h_8 => exact decide_eq_true_iff.trans (exists_decodeProcess_iff arg).symm
  case h_9 => exact decide_eq_true_iff.trans (exists_decodeFinish_iff arg).symm
  case h_10 => exact decide_eq_true_iff.trans (exists_decodeHexEncode_iff arg).symm
  case h_11 => simp
  all_goals exact decide_eq_true_iff.trans (exists_decodeNoArg_iff arg _).symm

/-- R77. -/
theorem legal_iff (w : Word) :
    legal w = true ↔ cmdRsv w = 0#20 ∧ legalArg (cmdOp w) (cmdArg w) = true := by
  rw [legal, Bool.and_eq_true, decide_eq_true_iff]

/-- R80. -/
theorem legal_iff_exists_decode (w : Word) : legal w = true ↔ ∃ i, decode w = .ok i := by
  rw [legal_iff, legalArg_iff_exists_decodeOp, decode]
  by_cases hrsv : cmdRsv w = 0#20 <;> simp [hrsv]

/-- R78: a word that is not legal is rejected, with one of the four causes. -/
theorem exists_decode_error_of_not_legal {w : Word} (h : legal w = false) :
    ∃ e, decode w = .error e := by
  cases hd : decode w with
  | ok i => exact absurd ((legal_iff_exists_decode w).2 ⟨i, hd⟩) (Bool.eq_false_iff.1 h)
  | error e => exact ⟨e, rfl⟩

/-! ### The field values of a legal word -/

/-- The bits of ARG from bit k up are 0 exactly when its value is below 2^k. -/
theorem high_bits_eq_zero_iff {k m : Nat} (arg : Byte) (h : k + m = 8) :
    arg.extractLsb' k m = 0#m ↔ arg.toNat < 2 ^ k := by
  have hlt : arg.toNat / 2 ^ k < 2 ^ m := by
    rw [Nat.div_lt_iff_lt_mul (Nat.two_pow_pos k), ← Nat.pow_add, Nat.add_comm m, h]
    exact arg.isLt
  rw [← BitVec.toNat_inj, BitVec.extractLsb'_toNat, BitVec.toNat_ofNat, Nat.zero_mod,
    Nat.shiftRight_eq_div_pow, Nat.mod_eq_of_lt hlt, Nat.div_eq_zero_iff_lt (Nat.two_pow_pos k)]

/-- R74: with ARG[7] = 0 the count is the whole of ARG. -/
theorem process_arg_legal_iff (arg : Byte) :
    arg.extractLsb' 7 1 = 0#1 ∧ (argN arg).toNat ≤ 64 ↔ arg.toNat ≤ 64 := by
  rw [high_bits_eq_zero_iff arg rfl, argN, BitVec.extractLsb'_toNat, Nat.shiftRight_zero]
  omega

/-- R77: the operand condition of each opcode, over the values the fields hold. -/
theorem legalArg_iff_values (op : BitVec 4) (arg : Byte) :
    legalArg op arg = true ↔
      (op.toNat ∈ [0, 1, 4, 5, 7, 8, 9] ∧ arg.toNat = 0) ∨ (op.toNat = 2 ∧ arg.toNat ≤ 64)
        ∨ (op.toNat = 3 ∧ arg.toNat ≤ 1) ∨ (op.toNat = 6 ∧ arg.toNat ≤ 63) := by
  have hzero : arg = 0x00#8 ↔ arg.toNat = 0 := BitVec.toNat_inj.symm
  have hcopy : arg.extractLsb' 1 7 = 0#7 ↔ arg.toNat ≤ 1 :=
    (high_bits_eq_zero_iff arg rfl).trans Nat.lt_succ_iff
  have hcap : arg.extractLsb' 6 2 = 0#2 ↔ arg.toNat ≤ 63 :=
    (high_bits_eq_zero_iff arg rfl).trans Nat.lt_succ_iff
  rw [legalArg]
  generalize op.toNat = n
  split
  case h_8 => rw [decide_eq_true_iff, process_arg_legal_iff]; simp
  case h_9 => rw [decide_eq_true_iff, hcopy]; simp
  case h_10 => rw [decide_eq_true_iff, hcap]; simp
  case h_11 => simp_all -- a reserved opcode is none of those listed
  all_goals rw [decide_eq_true_iff, hzero]; simp

/-- Settles O6: R80 by the decoder of each opcode, the values by the condition of each opcode. -/
theorem legalWordsAreThoseThatDecode : Obligations.LegalWordsAreThoseThatDecode := by
  intro w
  refine ⟨legal_iff_exists_decode w, ?_⟩
  have hrsv : cmdRsv w = 0#20 ↔ (cmdRsv w).toNat = 0 := BitVec.toNat_inj.symm
  rw [legal_iff, legalArg_iff_values, hrsv]

end Sys2Proof

namespace Sys2Proof.Machine

/-! ### Words that are not legal -/

/-- R204: a rejected word has the illegal effect on the state with its lanes. -/
theorem transact_of_decode_error {w : Word} {e : DecodeError} (h : decode w = .error e)
    (din : Vector Byte 64) (s : State) : transact w din s = .next (illegal { s with din := din }) := by
  rw [transact, runWord, h]

/-- Settles O7: an illegal word is rejected by the decoder, and `illegal` writes the flag and the
response alone. -/
theorem illegalWordsOnlySetErrIllegal : Obligations.IllegalWordsOnlySetErrIllegal := by
  intro w din s hillegal
  obtain ⟨e, he⟩ := exists_decode_error_of_not_legal hillegal
  rw [transact_of_decode_error he, illegal_eq]

end Sys2Proof.Machine
end

section
/-!
PROOFS. The stream and finish family: PROCESS, FINISH, GET_DIGEST and GET_HEX, each while the engine is
open and while it is finished.
-/
namespace Sys2Proof.Machine

/-! ### PROCESS -/

/-- R106: while open, a legal count of lanes is absorbed. -/
theorem exec_process_of_open {n : BitVec 7} {s : State} (hn : n.toNat ≤ 64)
    (hopen : s.finished = false) :
    exec (.process n) s = .next (respond [] (processChunk (dinLanes n.toNat s) s)) := by
  rw [exec, execProcess, if_neg (Nat.not_lt.2 hn), hopen, if_neg Bool.false_ne_true]

/-- R106: while finished, a legal count sets the flag alone. -/
theorem exec_process_of_finished {n : BitVec 7} {s : State} (hn : n.toNat ≤ 64)
    (hfin : s.finished = true) :
    exec (.process n) s = .next (respond [] (setErr .finished s)) := by
  rw [exec, execProcess, if_neg (Nat.not_lt.2 hn), if_pos hfin]

/-- Settles O18, one branch of R106 for each value of FINISHED. -/
theorem processAbsorbsOrSetsErrFinished : Obligations.ProcessAbsorbsOrSetsErrFinished := by
  intro n s hn
  exact ⟨exec_process_of_open hn, exec_process_of_finished hn⟩

/-! ### FINISH -/

/-- R107, R115: while open, the engine is finalised, and COPY selects the response. -/
theorem exec_finish_of_open (copy : Bool) {s : State} (hopen : s.finished = false) :
    exec (.finish copy) s
      = .next (respond (if copy then (finalise s).digest.toList else []) (finalise s)) := by
  rw [exec, execFinish, hopen, if_neg Bool.false_ne_true]

/-- R116: while finished, the flag is set and nothing is copied out. -/
theorem exec_finish_of_finished (copy : Bool) {s : State} (hfin : s.finished = true) :
    exec (.finish copy) s = .next (respond [] (setErr .finished s)) := by
  rw [exec, execFinish, if_pos hfin]

/-- Settles O25 by R116's branch of FINISH. -/
theorem finishWhenFinishedOnlySetsErrFinished :
    Obligations.FinishWhenFinishedOnlySetsErrFinished := by
  intro copy s hfin
  exact exec_finish_of_finished copy hfin

/-- R107, "State written": finalisation and a response keep the error flags. -/
theorem sameFlags_respond_finalise (r : List Byte) (s : State) :
    SameFlags s (respond r (finalise s)) := by
  rw [finalise_frame]
  exact ⟨rfl, rfl, rfl, rfl⟩

/-- Finalisation and a response keep the lanes and the host's events. -/
theorem samePort_respond_finalise (r : List Byte) (s : State) :
    SamePort s (respond r (finalise s)) := by
  rw [finalise_frame]
  exact ⟨rfl, rfl⟩

/-- R107, "State written": LEFT is kept. -/
@[simp] theorem finalise_left (s : State) : (finalise s).left = s.left := by
  rw [finalise_frame]

/-- R107, "State written": BUF is kept. -/
@[simp] theorem finalise_buf (s : State) : (finalise s).buf = s.buf := by
  rw [finalise_frame]

/-- R115. -/
@[simp] theorem finalise_finished (s : State) : (finalise s).finished = true := by
  rw [finalise_frame]

/-- Settles O26: the response touches none of these fields, so each is that of `finalise`. -/
theorem finishWritesDigestHexAndFinished : Obligations.FinishWritesDigestHexAndFinished := by
  intro copy s hopen
  have hhex : (finalise s).hexbuf.toList = hexEncode (finalise s).digest.toList 33 := by
    rw [finalise_hexbuf, finalise_digest]
  exact ⟨_, exec_finish_of_open copy hopen, finalise_digest s, hhex, finalise_finished s,
    finalise_left s, finalise_buf s, rfl, sameFlags_respond_finalise _ s,
    samePort_respond_finalise _ s⟩

/-! ### The digest queries -/

/-- R117. -/
theorem exec_getDigest_of_finished {s : State} (hfin : s.finished = true) :
    exec .getDigest s = .next (respond s.digest.toList s) := by
  rw [exec, execGetDigest, if_pos hfin]

/-- R117: before FINISH. -/
theorem exec_getDigest_of_open {s : State} (hopen : s.finished = false) :
    exec .getDigest s = .next (respondUnspec 16 (setErr .notFinished s)) := by
  rw [exec, execGetDigest, hopen, if_neg Bool.false_ne_true]

/-- R118. -/
theorem exec_getHex_of_finished {s : State} (hfin : s.finished = true) :
    exec .getHex s = .next (respond s.hexbuf.toList s) := by
  rw [exec, execGetHex, if_pos hfin]

/-- R118: before FINISH. -/
theorem exec_getHex_of_open {s : State} (hopen : s.finished = false) :
    exec .getHex s = .next (respondUnspec 33 (setErr .notFinished s)) := by
  rw [exec, execGetHex, hopen, if_neg Bool.false_ne_true]

/-- R10: an early query answers bytes of its length, and beside that sets the flag alone. -/
theorem exists_respondUnspec_setErr_notFinished (n : Nat) (s : State) :
    ∃ r k, r.length = n ∧ respondUnspec n (setErr .notFinished s)
      = { s with errNotFinished := true, resp := r, draws := k } :=
  ⟨unspecAt s.draws n, s.draws + n, unspecAt_length _ n, rfl⟩

/-- Settles O31, one branch of R117 for each value of FINISHED. -/
theorem getDigestAnswersDigestOrSetsErrNotFinished :
    Obligations.GetDigestAnswersDigestOrSetsErrNotFinished := by
  intro s
  refine ⟨exec_getDigest_of_finished, fun hopen => ?_⟩
  obtain ⟨r, k, hr, hk⟩ := exists_respondUnspec_setErr_notFinished 16 s
  exact ⟨r, k, hr, by rw [exec_getDigest_of_open hopen, hk]⟩

/-- R181: with the full capacity the encoding is all the characters and the terminator. -/
theorem hexEncode_33 {d : List Byte} (h : d.length = 16) :
    hexEncode d 33 = hexChars d ++ [terminator] := by
  rw [hexEncode, if_pos (le_refl _), List.take_of_length_le (by simp [h])]

/-- R118: byte 32 of HEXBUF is the terminator once HEXBUF is the hex form of DIGEST. -/
theorem hexbuf_terminator {s : State} (h : s.hexbuf.toList = hexEncode s.digest.toList 33) :
    s.hexbuf[32] = 0x00#8 := by
  rw [hexEncode_33 (by simp)] at h
  rw [← Vector.getElem_toList (by simp), List.getElem_of_eq h, List.getElem_append_right (by simp)]
  simp [terminator]

/-- Settles O32, one branch of R118 for each value of FINISHED, the terminator by the invariant. -/
theorem getHexAnswersHexbufOrSetsErrNotFinished :
    Obligations.GetHexAnswersHexbufOrSetsErrNotFinished := by
  intro s
  refine ⟨exec_getHex_of_finished, fun hfin hinv => hexbuf_terminator (hinv.hexbuf_eq hfin),
    fun hopen => ?_⟩
  obtain ⟨r, k, hr, hk⟩ := exists_respondUnspec_setErr_notFinished 33 s
  exact ⟨r, k, hr, by rw [exec_getHex_of_open hopen, hk]⟩

end Sys2Proof.Machine
end

section
/-!
PROOFS. The compression family: the rotation and its amounts, the functions and message words of the four
groups of steps, the round step, and the feed-forward.
-/
namespace Sys2Proof.Machine

/-! ### The amounts of the rotation -/

/-- One row of R149's table, as a list. -/
theorem pick4_eq_getD (i s0 s1 s2 s3 : Nat) :
    pick4 i s0 s1 s2 s3 = [s0, s1, s2, s3].getD (i % 4) 0 := by
  obtain h | h | h | h : i % 4 = 0 ∨ i % 4 = 1 ∨ i % 4 = 2 ∨ i % 4 = 3 := by omega
  all_goals simp [pick4, h]

/-- R149: the row is that of the group, the column that of i mod 4. -/
theorem shiftAmount_eq_table {i : Nat} (hi : i < 64) :
    shiftAmount i = ([[7, 12, 17, 22], [5, 9, 14, 20], [4, 11, 16, 23], [6, 10, 15, 21]].getD
      (i / 16) []).getD (i % 4) 0 := by
  simp only [shiftAmount, pick4_eq_getD]
  split_ifs with hF hG hH
  · rw [show i / 16 = 0 by omega]; rfl
  · rw [show i / 16 = 1 by omega]; rfl
  · rw [show i / 16 = 2 by omega]; rfl
  · rw [show i / 16 = 3 by omega]; rfl

/-- R149, R153: each group's four amounts are among the sixteen. -/
theorem shiftAmount_mem (i : Nat) :
    shiftAmount i ∈ [7, 12, 17, 22, 5, 9, 14, 20, 4, 11, 16, 23, 6, 10, 15, 21] := by
  rw [shiftAmount]
  split_ifs
  all_goals
    rw [pick4]
    split_ifs <;> decide

/-- R149: the range of the sixteen amounts. -/
theorem shiftAmount_bounds (i : Nat) : 4 ≤ shiftAmount i ∧ shiftAmount i ≤ 23 := by
  have bounds : ∀ s ∈ [7, 12, 17, 22, 5, 9, 14, 20, 4, 11, 16, 23, 6, 10, 15, 21], 4 ≤ s ∧ s ≤ 23 := by
    decide
  exact bounds _ (shiftAmount_mem i)

/-- Settles O44, the range by the list of the amounts. -/
theorem shiftAmountsFollowTheTable : Obligations.ShiftAmountsFollowTheTable := by
  intro i hi
  exact ⟨shiftAmount_eq_table hi, shiftAmount_bounds i⟩

/-! ### The rotation -/

/-- R6: below the width the two shifts joined are the library's rotation. -/
theorem rotl32_eq_rotateLeft (x : Word) {s : Nat} (hs : s < 32) : rotl32 x s = x.rotateLeft s := by
  rw [rotl32, BitVec.rotateLeft_def, Nat.mod_eq_of_lt hs]

/-- R153: bit j goes up by s, or wraps around to the bits below s. -/
theorem getLsbD_rotl32 (x : Word) {s j : Nat} (hs : s < 32) (hj : j < 32) :
    (rotl32 x s).getLsbD ((j + s) % 32) = x.getLsbD j := by
  rw [rotl32_eq_rotateLeft x hs, BitVec.getLsbD_rotateLeft, Nat.mod_eq_of_lt hs]
  rcases Nat.lt_or_ge (j + s) 32 with hstay | hwrap
  · rw [Nat.mod_eq_of_lt hstay]
    simp [hstay]
  · have hk : (j + s) % 32 = j + s - 32 := by omega
    have hbelow : j + s - 32 < s := by omega
    have hsource : 32 - s + (j + s - 32) = j := by omega
    simp [hk, hbelow, hsource]

/-- Settles O41: the rotation bit by bit, and the list of the amounts. -/
theorem rotationMovesBitJToJPlusS : Obligations.RotationMovesBitJToJPlusS := by
  refine ⟨fun x s _ hs => ⟨rfl, fun j hj => ?_⟩, fun i _ => shiftAmount_mem i⟩
  exact getLsbD_rotl32 x (Nat.lt_succ_of_le hs) hj

/-! ### The auxiliary functions -/

/-- R146: F chooses y where x is 1 and z where x is 0. -/
theorem getLsbD_auxF (x y z : Word) {j : Nat} (hj : j < 32) : (auxF x y z).getLsbD j
    = ((x.getLsbD j && y.getLsbD j) || (!x.getLsbD j && z.getLsbD j)) := by
  simp [auxF, hj]

/-- R146: G chooses x where z is 1 and y where z is 0. -/
theorem getLsbD_auxG (x y z : Word) {j : Nat} (hj : j < 32) : (auxG x y z).getLsbD j
    = ((x.getLsbD j && z.getLsbD j) || (y.getLsbD j && !z.getLsbD j)) := by
  simp [auxG, hj]

/-- R146: H is the parity. -/
theorem getLsbD_auxH (x y z : Word) (j : Nat) : (auxH x y z).getLsbD j
    = (x.getLsbD j ^^ y.getLsbD j ^^ z.getLsbD j) := by
  simp [auxH]

/-- R146: I. -/
theorem getLsbD_auxI (x y z : Word) {j : Nat} (hj : j < 32) : (auxI x y z).getLsbD j
    = (y.getLsbD j ^^ (x.getLsbD j || !z.getLsbD j)) := by
  simp [auxI, hj]

/-- R147: steps 0 to 15. -/
theorem auxFn_eq_auxF {i : Nat} (h : i < 16) : auxFn i = auxF := by
  funext x y z
  rw [auxFn, if_pos h]

/-- R147: steps 16 to 31. -/
theorem auxFn_eq_auxG {i : Nat} (hlo : 16 ≤ i) (hhi : i < 32) : auxFn i = auxG := by
  funext x y z
  rw [auxFn, if_neg (by omega), if_pos hhi]

/-- R147: steps 32 to 47. -/
theorem auxFn_eq_auxH {i : Nat} (hlo : 32 ≤ i) (hhi : i < 48) : auxFn i = auxH := by
  funext x y z
  rw [auxFn, if_neg (by omega), if_neg (by omega), if_pos hhi]

/-- R147: steps 48 to 63. -/
theorem auxFn_eq_auxI {i : Nat} (hlo : 48 ≤ i) : auxFn i = auxI := by
  funext x y z
  rw [auxFn, if_neg (by omega), if_neg (by omega), if_neg (by omega)]

/-- Settles O42, one group of steps at a time. -/
theorem auxiliaryFunctionsOfTheFourGroups : Obligations.AuxiliaryFunctionsOfTheFourGroups := by
  intro x y z i j hj
  refine ⟨fun hhi => ?_, fun hlo hhi => ?_, fun hlo hhi => ?_, fun hlo _ => ?_⟩
  · rw [auxFn_eq_auxF hhi, getLsbD_auxF x y z hj]
  · rw [auxFn_eq_auxG hlo hhi, getLsbD_auxG x y z hj]
  · rw [auxFn_eq_auxH hlo hhi, getLsbD_auxH]
  · rw [auxFn_eq_auxI hlo, getLsbD_auxI x y z hj]

/-! ### The message words -/

/-- The step of group g that uses message word j: R148's index of each group, solved for i with the
inverse of its factor modulo 16 (5 * 13, 3 * 11 and 7 * 7 are each 1 there). -/
def stepOfWord (g j : Nat) : Nat :=
  if g = 0 then j
  else if g = 1 then 16 + 13 * (j + 15) % 16
  else if g = 2 then 32 + 11 * (j + 11) % 16
  else 48 + 7 * j % 16

/-- R148: within a group, the step that uses word j is the one found by solving for it. -/
theorem group_and_msgIndex_iff {g i j : Nat} (hg : g < 4) (hi : i < 64) (hj : j < 16) :
    i / 16 = g ∧ msgIndex i = j ↔ i = stepOfWord g j := by
  rw [stepOfWord]
  split_ifs
  all_goals
    rw [msgIndex]
    split_ifs <;> omega

/-- That step is one of the sixty-four. -/
theorem stepOfWord_lt {g j : Nat} (hj : j < 16) : stepOfWord g j < 64 := by
  rw [stepOfWord]
  split_ifs <;> omega

/-- Settles O43: among the steps, the condition singles out one. -/
theorem eachGroupUsesEveryMessageWordOnce : Obligations.EachGroupUsesEveryMessageWordOnce := by
  refine ⟨fun i _ => by rw [msgIndex], fun g hg j hj => ?_⟩
  have hsteps : (List.range 64).filter (fun i => i / 16 = g ∧ msgIndex i = j)
      = (List.range 64).filter (· == stepOfWord g j) := by
    refine List.filter_congr fun i hi => ?_
    rw [beq_eq_decide]
    exact decide_eq_decide.2 (group_and_msgIndex_iff hg (List.mem_range.1 hi) hj)
  rw [hsteps, ← List.countP_eq_length_filter, ← List.count]
  exact List.count_eq_one_of_mem List.nodup_range (List.mem_range.2 (stepOfWord_lt hj))

/-! ### The round step and the feed-forward -/

/-- Settles O46, R144 and R145 being the definition of the step. -/
theorem roundStepMakesOneNewWord : Obligations.RoundStepMakesOneNewWord := by
  intro m i w _
  rw [roundStep]

/-- R151: each word is the pre-round word plus the word after step 63. -/
theorem compressWords_eq (acc : Words) (blk : List Byte) :
    compressWords acc blk = acc.plus (roundSteps (messageWords blk) 64 acc) := by
  rw [compressWords, Config.rounds]

/-- Settles O48: Compress leaves the compressed words in A to D, and its frame is `compress_eq`. -/
theorem compressFeedsForward : Obligations.CompressFeedsForward := by
  intro blk s r t
  refine ⟨?_, ?_⟩
  · rw [compress_acc, compressWords_eq, Words.plus]
  · simp only [t, compress_acc, compress_cntLo, compress_cntHi]
    exact compress_eq blk s

end Sys2Proof.Machine
end

section
/-!
PROOFS. The hex codec family: the value of a character, HexEncode character by character, and HexDecode
by way of the characters that the decoded bytes encode to.
-/
namespace Sys2Proof.Machine

/-! ### The alphabet -/

/-- R180: the table's sixteen entries are the ASCII digits. -/
theorem hexChar_eq_asciiDigit (v : BitVec 4) : hexChar v = asciiDigit v.toNat := by
  revert v
  decide

/-- R183: '0' to '9'. -/
theorem hexVal_of_digit {c : Byte} (hlo : 0x30 ≤ c.toNat) (hhi : c.toNat ≤ 0x39) :
    hexVal c = some (BitVec.ofNat 4 (c.toNat - 0x30)) := by
  rw [hexVal, if_pos ⟨BitVec.le_def.2 hlo, BitVec.le_def.2 hhi⟩]
  congr 1
  bv_omega

/-- R183: 'a' to 'f'. -/
theorem hexVal_of_letter {c : Byte} (hlo : 0x61 ≤ c.toNat) (hhi : c.toNat ≤ 0x66) :
    hexVal c = some (BitVec.ofNat 4 (c.toNat - 0x61 + 10)) := by
  rw [hexVal, if_neg (by bv_omega), if_pos ⟨BitVec.le_def.2 hlo, BitVec.le_def.2 hhi⟩]
  congr 1
  bv_omega

/-- R183: every byte outside the two ranges. -/
theorem hexVal_eq_none {c : Byte} (hdigit : c.toNat < 0x30 ∨ 0x39 < c.toNat)
    (hletter : c.toNat < 0x61 ∨ 0x66 < c.toNat) : hexVal c = none := by
  rw [hexVal, if_neg (by bv_omega), if_neg (by bv_omega)]

/-- Settles O36, one range of bytes at a time. -/
theorem hexValAcceptsOnlyTheAlphabet : Obligations.HexValAcceptsOnlyTheAlphabet := by
  intro c
  exact ⟨hexVal_of_digit, hexVal_of_letter, hexVal_eq_none⟩

/-! ### HexEncode -/

/-- R181: characters 2k and 2k + 1 are the pair of byte k. -/
theorem getElem?_hexChars (d : List Byte) (k : Nat) {r : Nat} (hr : r < 2) :
    (hexChars d)[2 * k + r]? = d[k]?.bind fun b => (hexPair b)[r]? := by
  induction d generalizing k with
  | nil => rfl
  | cons b d ih =>
    have hcons : hexChars (b :: d) = hexPair b ++ hexChars d := List.flatMap_cons
    have hpair : (hexPair b).length = 2 := rfl
    rw [hcons]
    cases k with
    | zero => simp [List.getElem?_append_left, hpair, hr]
    | succ k =>
      rw [List.getElem?_append_right (by omega), hpair, show 2 * (k + 1) + r - 2 = 2 * k + r by omega,
        ih, List.getElem?_cons_succ]

/-- R181, R56: character 2k is that of the high nibble of byte k. -/
theorem getElem?_hexChars_high (d : List Byte) (k : Nat) :
    (hexChars d)[2 * k]? = d[k]?.map fun b => hexChar (b.extractLsb' 4 4) := by
  rw [← Nat.add_zero (2 * k), getElem?_hexChars d k (by decide)]
  exact Option.map_eq_bind.symm

/-- R181, R56: character 2k + 1 is that of the low nibble of byte k. -/
theorem getElem?_hexChars_low (d : List Byte) (k : Nat) :
    (hexChars d)[2 * k + 1]? = d[k]?.map fun b => hexChar (b.extractLsb' 0 4) := by
  rw [getElem?_hexChars d k (by decide)]
  exact Option.map_eq_bind.symm

/-- The high nibble as a number. -/
theorem toNat_highNibble (b : Byte) : (b.extractLsb' 4 4).toNat = b.toNat / 16 := by
  rw [BitVec.extractLsb'_toNat, Nat.shiftRight_eq_div_pow]
  omega

/-- The low nibble as a number. -/
theorem toNat_lowNibble (b : Byte) : (b.extractLsb' 0 4).toNat = b.toNat % 16 := by
  rw [BitVec.extractLsb'_toNat, Nat.shiftRight_zero]

/-- R181: below the capacity, the encoding's first 32 bytes are the characters. -/
theorem getElem?_hexEncode {d : List Byte} {cap i : Nat} (hd : d.length = 16) (hcap : i < cap)
    (hi : i < 32) : (hexEncode d cap)[i]? = (hexChars d)[i]? := by
  have hmin : i < min cap 32 := lt_min hcap hi
  have htake : ((hexChars d).take (min cap 32))[i]? = (hexChars d)[i]? :=
    List.getElem?_take_of_lt hmin
  rw [hexEncode]
  split
  · rw [List.getElem?_append_left (by simp [hd, hmin]), htake]
  · exact htake

/-- R181: more capacity than 33 bytes changes nothing. -/
theorem hexEncode_of_le (d : List Byte) {cap : Nat} (h : 33 ≤ cap) :
    hexEncode d cap = hexEncode d 33 := by
  rw [hexEncode, hexEncode, if_pos h, if_pos (le_refl _), min_eq_right (Nat.le_of_succ_le h)]
  rfl

/-- R181: from capacity 33 on, byte 32 is the terminator. -/
theorem hexEncode_terminator {d : List Byte} {cap : Nat} (hd : d.length = 16) (h : 33 ≤ cap) :
    (hexEncode d cap)[32]? = some 0x00#8 := by
  rw [hexEncode_of_le d h, hexEncode_33 hd, List.getElem?_append_right (by simp [hd])]
  simp [hd, terminator]

/-- Settles O34: the characters of each pair by index, and the terminator after them. -/
theorem hexEncodeGivesTheNibbleCharacters : Obligations.HexEncodeGivesTheNibbleCharacters := by
  intro d cap hd
  refine ⟨hexEncode_length d cap hd, fun k hk hcap => ?_, fun k hk hcap => ?_,
    hexEncode_terminator hd⟩
  · rw [getElem?_hexEncode hd hcap (by omega), getElem?_hexChars_high]
    simp only [hexChar_eq_asciiDigit, toNat_highNibble]
  · rw [getElem?_hexEncode hd hcap (by omega), getElem?_hexChars_low]
    simp only [hexChar_eq_asciiDigit, toNat_lowNibble]

/-- Settles O35, R182 being the definition of the command. -/
theorem hexEncodeCommandAnswersTheEncoding : Obligations.HexEncodeCommandAnswersTheEncoding := by
  intro cap s
  rw [exec, execHexEncode, respond, dinLanes]

/-! ### HexDecode -/

/-- R184: the two characters of one byte, then the others. -/
theorem hexDecode_cons_of_valid {c0 c1 : Byte} {rest out : List Byte} {hi lo : BitVec 4}
    (h0 : hexVal c0 = some hi) (h1 : hexVal c1 = some lo) (hrest : hexDecode rest = some out) :
    hexDecode (c0 :: c1 :: rest) = some (joinNibbles hi lo :: out) := by
  rw [hexDecode, h0, h1, hrest]

/-- R184: an even number of valid characters decodes. -/
theorem exists_hexDecode_of_valid (n : Nat) {h : List Byte} (hlen : h.length = 2 * n)
    (hvalid : ∀ c ∈ h, hexVal c ≠ none) : ∃ out, hexDecode h = some out := by
  induction n generalizing h with
  | zero =>
    obtain rfl : h = [] := List.length_eq_zero_iff.1 hlen
    exact ⟨[], rfl⟩
  | succ n ih =>
    match h, hlen with
    | c0 :: c1 :: rest, hlen =>
      simp only [List.forall_mem_cons] at hvalid
      obtain ⟨hc0, hc1, hcs⟩ := hvalid
      obtain ⟨hi, h0⟩ := Option.ne_none_iff_exists'.1 hc0
      obtain ⟨lo, h1⟩ := Option.ne_none_iff_exists'.1 hc1
      obtain ⟨out, hrest⟩ := ih (by simp at hlen; omega) hcs
      exact ⟨_, hexDecode_cons_of_valid h0 h1 hrest⟩

/-- R184: the decoded bytes have the decoded text as their characters. -/
theorem hexChars_of_hexDecode {h out : List Byte} (hd : hexDecode h = some out) :
    hexChars out = h := by
  match h with
  | [] =>
    cases hd
    rfl
  | [_] => cases hd
  | c0 :: c1 :: rest =>
    obtain ⟨hi, lo, o, h0, h1, hrest, rfl⟩ := hexDecode_cons hd
    have hcons : hexChars (joinNibbles hi lo :: o) = hexPair (joinNibbles hi lo) ++ hexChars o :=
      List.flatMap_cons
    rw [hcons, hexPair_joinNibbles, hexChars_of_hexDecode hrest, hexChar_of_hexVal h0,
      hexChar_of_hexVal h1]
    rfl

/-- Every character that HexEncode writes is valid. -/
theorem hexVal_ne_none_of_mem_hexChars {d : List Byte} {c : Byte} (hc : c ∈ hexChars d) :
    hexVal c ≠ none := by
  obtain ⟨b, -, hb⟩ := List.mem_flatMap.1 hc
  rw [hexPair, List.mem_pair] at hb
  rcases hb with rfl | rfl <;> simp

/-- R184: one invalid character makes the whole text invalid. -/
theorem hexDecode_eq_none {h : List Byte} {c : Byte} (hc : c ∈ h) (hbad : hexVal c = none) :
    hexDecode h = none := by
  by_contra hsome
  obtain ⟨out, hout⟩ := Option.ne_none_iff_exists'.1 hsome
  rw [← hexChars_of_hexDecode hout] at hc
  exact hexVal_ne_none_of_mem_hexChars hc hbad

/-- R184: byte k is made of the values of characters 2k and 2k + 1. -/
theorem getElem?_of_hexDecode {h out : List Byte} {k : Nat} {c0 c1 : Byte} {hi lo : BitVec 4}
    (hd : hexDecode h = some out) (hc0 : h[2 * k]? = some c0) (hc1 : h[2 * k + 1]? = some c1)
    (h0 : hexVal c0 = some hi) (h1 : hexVal c1 = some lo) : out[k]? = some (joinNibbles hi lo) := by
  rw [← hexChars_of_hexDecode hd, getElem?_hexChars_high] at hc0
  rw [← hexChars_of_hexDecode hd, getElem?_hexChars_low] at hc1
  obtain ⟨b, hb, rfl⟩ := Option.map_eq_some_iff.1 hc0
  obtain rfl : hexChar (b.extractLsb' 0 4) = c1 := by simpa [hb] using hc1
  rw [hexVal_hexChar, Option.some_inj] at h0 h1
  rw [hb, ← h0, ← h1, joinNibbles_nibbles]

/-- R184: 16 * hi + lo needs no more than the byte. -/
theorem joinNibbles_eq_ofNat (hi lo : BitVec 4) :
    joinNibbles hi lo = BitVec.ofNat 8 (16 * hi.toNat + lo.toNat) := by
  rw [joinNibbles]
  bv_omega

/-! ### HEX_DECODE -/

/-- R57: lane j is byte j of the operand. -/
theorem getElem?_dinLanes {n j : Nat} (s : State) (hn : j < n) (hj : j < 64) :
    (dinLanes n s)[j]? = some s.din[j] := by
  simp [dinLanes, hn, hj]

/-- R185: the operand holds the low 32 lanes. -/
theorem exists_lane_of_mem_dinLanes {s : State} {c : Byte} (hc : c ∈ dinLanes 32 s) :
    ∃ j, ∃ _ : j < 32, s.din[j] = c := by
  obtain ⟨j, hj, rfl⟩ := List.mem_iff_getElem.1 hc
  rw [dinLanes_length 32 s (by decide)] at hj
  exact ⟨j, hj, by simp [dinLanes]⟩

/-- R185, valid text. -/
theorem exec_hexDecode_of_some {s : State} {out : List Byte}
    (h : hexDecode (dinLanes 32 s) = some out) : exec .hexDecode s = .next (respond out s) := by
  rw [exec, execHexDecode, h]

/-- R185, invalid text. -/
theorem exec_hexDecode_of_none {s : State} (h : hexDecode (dinLanes 32 s) = none) :
    exec .hexDecode s = .next (respondUnspec 16 (setErr .badHex s)) := by
  rw [exec, execHexDecode, h]

/-- Settles O37: valid lanes decode, byte by byte, and an invalid lane is an invalid character. -/
theorem hexDecodeAnswersTheBytesOrSetsErrBadHex :
    Obligations.HexDecodeAnswersTheBytesOrSetsErrBadHex := by
  intro s
  have hlen : (dinLanes 32 s).length = 2 * 16 := dinLanes_length 32 s (by decide)
  constructor
  · intro hvalid
    have hchars : ∀ c ∈ dinLanes 32 s, hexVal c ≠ none := by
      intro c hc
      obtain ⟨j, hj, rfl⟩ := exists_lane_of_mem_dinLanes hc
      exact hvalid j hj
    obtain ⟨out, hout⟩ := exists_hexDecode_of_valid 16 hlen hchars
    refine ⟨out, hexDecode_length 16 _ out hlen hout, exec_hexDecode_of_some hout, ?_⟩
    intro k hk hi lo h0 h1
    rw [← joinNibbles_eq_ofNat]
    exact getElem?_of_hexDecode hout (getElem?_dinLanes s (by omega) (by omega))
      (getElem?_dinLanes s (by omega) (by omega)) h0 h1
  · rintro ⟨j, hj, hbad⟩
    have hmem : s.din[j] ∈ dinLanes 32 s :=
      List.mem_iff_getElem?.2 ⟨j, getElem?_dinLanes s hj (by omega)⟩
    refine ⟨unspecAt s.draws 16, s.draws + 16, unspecAt_length _ 16, ?_⟩
    exact exec_hexDecode_of_none (hexDecode_eq_none hmem hbad)

end Sys2Proof.Machine
end

section
/-!
PROOFS. The control family: NOP, INIT and CLEAR_STATUS as one equation each, and the state that the
reset of the engine leaves.
-/
namespace Sys2Proof.Machine

/-! ### The control commands as equations -/

/-- R200. -/
theorem exec_nop (s : State) : exec .nop s = .next (respond [] s) := by
  rw [exec, execNop]

/-- R201. -/
theorem exec_init (s : State) : exec .init s = .next (respond [] (initEngine s)) := by
  rw [exec, execInit]

/-- R203. -/
theorem exec_clearStatus (s : State) : exec .clearStatus s = .next (respond [] (clearErrs s)) := by
  rw [exec, execClearStatus]

/-! ### The engine's reset -/

/-- R201, R250: `initEngine` writes the stated values, and a response touches none of them. -/
theorem atResetValues_respond_initEngine (r : List Byte) (s : State) :
    AtResetValues (respond r (initEngine s)) := by
  have hacc : (respond r (initEngine s)).acc = iv := by rw [respond_acc, initEngine_acc]
  constructor
  case a | b | c | d =>
    rw [hacc, iv]
  all_goals simp

/-- R201, "State written": the lanes and the host's events are not among it. -/
theorem samePort_respond_initEngine (r : List Byte) (s : State) :
    SamePort s (respond r (initEngine s)) := by
  constructor <;> simp

/-! ### The obligations -/

/-- Settles O14: NOP only answers, and the answer is empty. -/
theorem nopChangesNothing : Obligations.NopChangesNothing := by
  intro s
  rw [exec_nop, respond]

/-- Settles O15: the state after INIT is that of `initEngine` with the empty response. -/
theorem initStartsANewComputation : Obligations.InitStartsANewComputation := by
  intro s
  exact ⟨_, exec_init s, atResetValues_respond_initEngine [] s, respond_resp [] _,
    samePort_respond_initEngine [] s⟩

/-- Settles O17: the flags that `clearErrs` clears, and the empty response, are all that changes. -/
theorem clearStatusClearsTheFourFlags : Obligations.ClearStatusClearsTheFourFlags := by
  intro s
  rw [exec_clearStatus, clearErrs, respond]

end Sys2Proof.Machine
end

section
/-!
PROOFS. The exceptions family: every command has a next state and a response of at most 33 bytes.
-/
namespace Sys2Proof.Machine

/-! ### Every command has a next state -/

/-- The term of a count above 64, which no word decodes to. -/
theorem exec_process_of_overlong {n : BitVec 7} {s : State} (hn : 64 < n.toNat) :
    exec (.process n) s = .next (illegal s) := by
  rw [exec, execProcess, if_pos hn]

/-- No command faults or is refused: one equation for each of its conditions. -/
theorem exists_exec_eq_next (i : Instr) (s : State) : ∃ t, exec i s = .next t := by
  cases i with
  | process n =>
    rcases Nat.lt_or_ge 64 n.toNat with hn | hn
    · exact ⟨_, exec_process_of_overlong hn⟩
    · cases hf : s.finished with
      | false => exact ⟨_, exec_process_of_open hn hf⟩
      | true => exact ⟨_, exec_process_of_finished hn hf⟩
  | finish copy =>
    cases hf : s.finished with
    | false => exact ⟨_, exec_finish_of_open copy hf⟩
    | true => exact ⟨_, exec_finish_of_finished copy hf⟩
  | getDigest =>
    cases hf : s.finished with
    | false => exact ⟨_, exec_getDigest_of_open hf⟩
    | true => exact ⟨_, exec_getDigest_of_finished hf⟩
  | getHex =>
    cases hf : s.finished with
    | false => exact ⟨_, exec_getHex_of_open hf⟩
    | true => exact ⟨_, exec_getHex_of_finished hf⟩
  | hexDecode =>
    cases hd : hexDecode (dinLanes 32 s) with
    | none => exact ⟨_, exec_hexDecode_of_none hd⟩
    | some out => exact ⟨_, exec_hexDecode_of_some hd⟩
  | nop | init | hexEncode | readStatus | clearStatus => exact ⟨_, rfl⟩

/-- R9: a legal word runs its command, any other word has the illegal effect. -/
theorem exists_transact_eq_next (w : Word) (din : Vector Byte 64) (s : State) :
    ∃ t, transact w din s = .next t := by
  cases hw : decode w with
  | ok i =>
    rw [transact, runWord, hw]
    exact exists_exec_eq_next i _
  | error e => exact ⟨_, transact_of_decode_error hw din s⟩

/-- R255: one branch for each event the host can have pending, and one for none. -/
theorem exists_step_eq_next (s : State) : ∃ t, step s = .next t := by
  rw [step, takeEvent]
  split
  · exact ⟨_, rfl⟩
  · exact ⟨_, rfl⟩
  · exact exists_transact_eq_next _ _ _

/-! ### The length of a response -/

/-- R9: the longest response is the 33 bytes of GET_HEX, or of HEX_ENCODE with its terminator. -/
theorem exec_resp_length_le {i : Instr} {s t : State} (h : exec i s = .next t) :
    t.resp.length ≤ 33 := by
  cases i with
  | process n =>
    rcases execProcess_cases h with ⟨-, rfl⟩ | ⟨-, -, rfl⟩ | ⟨-, -, rfl⟩
    · simp [illegal]
    · simp
    · simp
  | finish copy =>
    rcases execFinish_cases h with ⟨-, rfl⟩ | ⟨-, rfl⟩
    · simp
    · cases copy <;> simp
  | getDigest | getHex =>
    simp only [exec, execGetDigest, execGetHex] at h
    split at h <;> (cases h; simp)
  | hexEncode cap =>
    cases h
    rw [respond_resp, hexEncode_length _ _ (dinLanes_length 16 s (by decide))]
    exact min_le_right _ _
  | hexDecode =>
    rcases execHexDecode_cases h with ⟨-, rfl⟩ | ⟨out, hout, rfl⟩
    · simp
    · rw [respond_resp, hexDecode_length 16 _ out (dinLanes_length 32 s (by decide)) hout]
      decide
  | nop | init | readStatus | clearStatus =>
    cases h
    simp

/-- The same for every word: the illegal effect answers no bytes. -/
theorem transact_resp_length_le {w : Word} {din : Vector Byte 64} {s t : State}
    (h : transact w din s = .next t) : t.resp.length ≤ 33 := by
  rcases transact_cases h with ⟨i, -, hi⟩ | ⟨-, rfl⟩
  · exact exec_resp_length_le hi
  · simp [illegal]

/-! ### The obligation -/

/-- Settles O11: a transaction completes with a response in its bound, and a step completes whatever
the host has pending. -/
theorem everyCommandCompletes : Obligations.EveryCommandCompletes := by
  refine ⟨fun w din s => ?_, exists_step_eq_next⟩
  obtain ⟨t, ht⟩ := exists_transact_eq_next w din s
  exact ⟨t, ht, transact_resp_length_le ht⟩

end Sys2Proof.Machine
end

section
/-!
PROOFS. The reset family: the state after reset, the reset input as a step, and the values both share
with INIT.
-/
namespace Sys2Proof.Machine

/-! ### The reset state and the reset input -/

/-- R250: every stated row of the table is a field of `State.reset`. -/
theorem atResetValues_reset : AtResetValues State.reset := by
  constructor <;> rfl

/-- R250, R255: a pending reset is taken off the host's events and runs the reset input. -/
theorem step_of_host_eq_reset_cons {s : State} {rest : List HostEvent}
    (h : s.host = .reset :: rest) : step s = .next (resetInput { s with host := rest }) := by
  rw [step, takeEvent, h]

/-- R250: the reset input is INIT's change of the engine with the empty response. -/
theorem atResetValues_resetInput (s : State) : AtResetValues (resetInput s) :=
  atResetValues_respond_initEngine [] s

/-! ### The obligation -/

/-- Settles O1: the reset state by its fields, the reset input and INIT by the values `initEngine`
writes. -/
theorem resetAndInitGiveTheStatedValues : Obligations.ResetAndInitGiveTheStatedValues := by
  refine ⟨atResetValues_reset, fun s rest hhost => ?_, fun s => ?_⟩
  · exact ⟨_, step_of_host_eq_reset_cons hhost, atResetValues_resetInput _⟩
  · exact ⟨_, exec_init s, atResetValues_respond_initEngine [] s⟩

end Sys2Proof.Machine
end

section
/-!
PROOFS. Inverse codings: a command's word decodes to the command and back (30_encoding.md R80), and the
hex codec undoes itself in both directions (42_hex_codec.md R186).
-/
namespace Sys2Proof

/-! ### Command words -/

/-- R81, R77: a command's word is legal exactly when the command is well formed. -/
theorem legal_encode (i : Instr) : legal (encode i) = i.wellFormed := by
  cases i with
  | nop => exact Laws.EncodeLegal.nop
  | init => exact Laws.EncodeLegal.init
  | process n => exact Laws.EncodeLegal.process n
  | finish copy => exact Laws.EncodeLegal.finish copy
  | getDigest => exact Laws.EncodeLegal.getDigest
  | getHex => exact Laws.EncodeLegal.getHex
  | hexEncode cap => exact Laws.EncodeLegal.hexEncode cap
  | hexDecode => exact Laws.EncodeLegal.hexDecode
  | readStatus => exact Laws.EncodeLegal.readStatus
  | clearStatus => exact Laws.EncodeLegal.clearStatus

/-- R80: the word of a well-formed command decodes to it. -/
theorem decode_encode {i : Instr} (h : i.wellFormed = true) : decode (encode i) = .ok i := by
  cases i with
  | process n => revert n; decide
  | finish copy => revert copy; decide
  | hexEncode cap => revert cap; decide
  | nop | init | getDigest | getHex | hexDecode | readStatus | clearStatus => decide

/-- R80: a decoded command is well formed, its word being a legal one. -/
theorem wellFormed_of_decode {w : Word} {i : Instr} (h : decode w = .ok i) :
    i.wellFormed = true := by
  rw [← legal_encode, encode_of_decode h]
  exact (legal_iff_exists_decode w).2 ⟨i, h⟩

/-- Settles O4, one command at a time. -/
theorem decodeOfEncodeIsTheCommand : Obligations.DecodeOfEncodeIsTheCommand := by
  intro i hi
  exact decode_encode hi

/-- Settles O5: the fields of the word are those of the command's word, which is then a legal one. -/
theorem encodeOfDecodeIsTheWord : Obligations.EncodeOfDecodeIsTheWord := by
  intro w i h
  exact ⟨encode_of_decode h, wellFormed_of_decode h⟩

/-- Settles O8: each word is the one `encode` gives its command. -/
theorem sampleWordsDecodeAsTheTableSays : Obligations.SampleWordsDecodeAsTheTableSays := by
  exact ⟨decode_encode (i := .nop) rfl, decode_encode (i := .init) rfl,
    decode_encode (i := .process 64#7) rfl, decode_encode (i := .process 43#7) rfl,
    decode_encode (i := .finish false) rfl, decode_encode (i := .finish true) rfl,
    decode_encode (i := .getDigest) rfl, decode_encode (i := .getHex) rfl,
    decode_encode (i := .hexEncode 33#6) rfl, decode_encode (i := .hexDecode) rfl,
    decode_encode (i := .readStatus) rfl, decode_encode (i := .clearStatus) rfl⟩

end Sys2Proof

namespace Sys2Proof.Machine

/-! ### The hex codec -/

/-- R181: the characters of the first byte, then those of the others. -/
theorem hexChars_cons (b : Byte) (d : List Byte) :
    hexChars (b :: d) = hexChar (b.extractLsb' 4 4) :: hexChar (b.extractLsb' 0 4) :: hexChars d :=
  List.flatMap_cons

/-- R186: the characters of any byte sequence decode to it. -/
theorem hexDecode_hexChars (d : List Byte) : hexDecode (hexChars d) = some d := by
  induction d with
  | nil => rfl
  | cons b d ih =>
    rw [hexChars_cons, hexDecode_cons_of_valid (hexVal_hexChar _) (hexVal_hexChar _) ih,
      joinNibbles_nibbles]

/-- Settles O38: at capacity 32 the encoding is the characters alone. -/
theorem decodeOfEncodedDigestIsTheDigest : Obligations.DecodeOfEncodedDigestIsTheDigest := by
  intro d hd
  rw [hexEncode_32 hd, hexDecode_hexChars]

/-- Settles O39: 32 characters decode to 16 bytes, whose characters they are. -/
theorem encodeOfDecodedTextIsTheText : Obligations.EncodeOfDecodedTextIsTheText := by
  intro h out hlen hd
  rw [hexEncode_32 (hexDecode_length 16 h out hlen hd), hexChars_of_hexDecode hd]

end Sys2Proof.Machine
end

section
/-!
PROOFS. The length accumulator: CNT as a number (41_compression.md R152) and the bit length made of it
(40_stream_and_finish.md R109).
-/
namespace Sys2Proof.Machine

/-! ### CNT -/

theorem cnt_lt (s : State) : cnt s < 2 ^ 64 := by
  have hlo := s.cntLo.isLt
  have hhi := s.cntHi.isLt
  rw [cnt]
  omega

/-- CNT is made of its two halves only. -/
theorem cnt_congr {s t : State} (hlo : t.cntLo = s.cntLo) (hhi : t.cntHi = s.cntHi) :
    cnt t = cnt s := by
  rw [cnt, cnt, hlo, hhi]

/-- CNT determines its two halves. -/
theorem halves_eq_of_cnt_eq {s t : State} (h : cnt t = cnt s) :
    t.cntLo = s.cntLo ∧ t.cntHi = s.cntHi := by
  have hs := s.cntLo.isLt
  have ht := t.cntLo.isLt
  rw [cnt, cnt] at h
  constructor <;> (apply BitVec.eq_of_toNat_eq; omega)

/-- R152: the low half wraps exactly when the sum is below what was added, and then the carry goes to
the high half. -/
theorem cnt_cntAdd {n : Nat} (s : State) (hn : n ≤ 64) :
    cnt (cntAdd n s) = (cnt s + n) % 2 ^ 64 := by
  have hlo := s.cntLo.isLt
  have hhi := s.cntHi.isLt
  have hadded : (BitVec.ofNat 32 n).toNat = n := by
    rw [BitVec.toNat_ofNat]
    omega
  have hsum : (s.cntLo + BitVec.ofNat 32 n).toNat = (s.cntLo.toNat + n) % 2 ^ 32 := by
    rw [BitVec.toNat_add, hadded]
  rw [cnt, cnt, cntAdd_cntLo, cntAdd_cntHi, hsum]
  split
  · next hcarry =>
    rw [BitVec.lt_def, hsum, hadded] at hcarry
    have hhi' : (s.cntHi + 1#32).toNat = (s.cntHi.toNat + 1) % 2 ^ 32 := BitVec.toNat_add ..
    omega
  · next hcarry =>
    rw [BitVec.lt_def, hsum, hadded] at hcarry
    omega

/-- R141: each block counts 64 bytes. -/
theorem cnt_compress (blk : List Byte) (s : State) :
    cnt (compress blk s) = (cnt s + 64) % 2 ^ 64 := by
  rw [← cnt_cntAdd s (le_refl 64)]
  exact cnt_congr (compress_cntLo blk s) (compress_cntHi blk s)

/-- Settles O49: the sum with its carry, and the frame of R152. -/
theorem lengthAccumulatorAddsModulo2To64 : Obligations.LengthAccumulatorAddsModulo2To64 := by
  refine ⟨fun n s hn => ⟨cnt_cntAdd s hn, ?_⟩, cnt_compress⟩
  rw [cntAdd]

/-! ### The bit length -/

/-- R109: the three bits that leave the low half enter the high half below its own. -/
theorem toNat_bitsHi (hi lo : Word) :
    (bitsHi hi lo).toNat = 2 ^ 3 * (hi.toNat % 2 ^ 29) + lo.toNat / 2 ^ 29 := by
  have hlo := lo.isLt
  have hhigh : (hi <<< 3).toNat = 2 ^ 3 * (hi.toNat % 2 ^ 29) := by
    rw [BitVec.toNat_shiftLeft, Nat.shiftLeft_eq]
    omega
  have hlow : (lo >>> 29).toNat = lo.toNat / 2 ^ 29 := by
    rw [BitVec.toNat_ushiftRight, Nat.shiftRight_eq_div_pow]
  rw [bitsHi, BitVec.toNat_or, hhigh, hlow]
  exact (Nat.two_pow_add_eq_or_of_lt (by omega) _).symm

/-- R109: the low half shifted. -/
theorem toNat_bitsLo (lo : Word) : (bitsLo lo).toNat = 8 * lo.toNat % 2 ^ 32 := by
  rw [bitsLo, BitVec.toNat_shiftLeft, Nat.shiftLeft_eq, Nat.mul_comm]

/-- R109: the two words as one number. -/
theorem bits_eq_eight_mul (hi lo : Word) :
    (bitsHi hi lo).toNat * 2 ^ 32 + (bitsLo lo).toNat
      = 8 * (hi.toNat * 2 ^ 32 + lo.toNat) % 2 ^ 64 := by
  have hlo := lo.isLt
  rw [toNat_bitsHi, toNat_bitsLo]
  omega

/-- Settles O30 by the values of the two shifted halves. -/
theorem bitLengthIsEightTimesTheByteCount : Obligations.BitLengthIsEightTimesTheByteCount := by
  intro hi lo
  exact bits_eq_eight_mul hi lo

/-- R109, R55: an accumulator that holds n modulo 2^64 gives the two words of the bit length 8n. -/
theorem bits_of_cnt {s : State} {n : Nat} (h : cnt s = n % 2 ^ 64) :
    bitsLo s.cntLo = BitVec.ofNat 32 (8 * n)
      ∧ bitsHi s.cntHi s.cntLo = BitVec.ofNat 32 (8 * n / 2 ^ 32) := by
  have hbits := bits_eq_eight_mul s.cntHi s.cntLo
  have hlo := (bitsLo s.cntLo).isLt
  rw [← cnt, h] at hbits
  constructor <;>
  · apply BitVec.eq_of_toNat_eq
    rw [BitVec.toNat_ofNat]
    omega

end Sys2Proof.Machine
end

section
/-!
PROOFS. The streaming buffer (40_stream_and_finish.md R100 to R106): what ProcessChunk leaves in LEFT and
CNT beside A to D and BUF, the three shapes of PROCESS, and the byte-serial form.
-/
namespace Sys2Proof.Machine

/-! ### CNT and LEFT after each phase of ProcessChunk -/

@[simp] theorem cnt_respond (r : List Byte) (s : State) : cnt (respond r s) = cnt s := rfl

@[simp] theorem cnt_appendTail (data : List Byte) (s : State) : cnt (appendTail data s) = cnt s :=
  cnt_congr (appendTail_cntLo data s) (appendTail_cntHi data s)

theorem cnt_completeBlock (data : List Byte) (s : State) :
    cnt (completeBlock data s) = (cnt s + 64) % 2 ^ 64 := by
  rw [← cnt_cntAdd s (le_refl 64)]
  exact cnt_congr (completeBlock_cntLo data s) (completeBlock_cntHi data s)

/-- R100, phase 2: each whole block counts 64 bytes. -/
theorem cnt_absorbBlocks (k : Nat) (data : List Byte) (s : State) (h : 64 * k ≤ data.length) :
    cnt (absorbBlocks k data s).2 = (cnt s + 64 * k) % 2 ^ 64 := by
  induction k generalizing data s with
  | zero => rw [absorbBlocks_zero, Nat.mul_zero, Nat.add_zero, Nat.mod_eq_of_lt (cnt_lt s)]
  | succ k ih =>
    rw [absorbBlocks_succ k s (by omega), ih _ _ (by rw [List.length_drop]; omega), cnt_compress]
    omega

theorem cnt_absorbRest (data : List Byte) (s : State) :
    cnt (absorbRest data s) = (cnt s + 64 * (data.length / 64)) % 2 ^ 64 := by
  rw [absorbRest, cnt_appendTail]
  exact cnt_absorbBlocks _ data s (Nat.mul_div_le _ _)

theorem left_absorbRest (data : List Byte) (s : State) (h : s.left.toNat ≤ 63) :
    (absorbRest data s).left.toNat = s.left.toNat + data.length % 64 := by
  rw [absorbRest_eq, BitVec.toNat_ofNat]
  omega

/-- ProcessChunk's first branch: phase 1 completes a block, phases 2 and 3 take the rest. -/
theorem processChunk_of_completes {data : List Byte} {s : State} (h0 : 0 < s.left.toNat)
    (h : 64 ≤ s.left.toNat + data.length) :
    processChunk data s = absorbRest (data.drop (64 - s.left.toNat))
      (completeBlock (data.take (64 - s.left.toNat)) s) :=
  if_pos ⟨h0, h⟩

/-- ProcessChunk's second branch: nothing to complete, or not enough to complete it. -/
theorem processChunk_of_not_completes {data : List Byte} {s : State}
    (h : s.left.toNat = 0 ∨ s.left.toNat + data.length < 64) :
    processChunk data s = absorbRest data s :=
  if_neg (by simp only [Config.blockBytes]; omega)

/-- R101. -/
theorem left_processChunk (data : List Byte) {s : State} (h : s.left.toNat ≤ 63) :
    (processChunk data s).left.toNat = (s.left.toNat + data.length) % 64 := by
  by_cases hc : 0 < s.left.toNat ∧ 64 ≤ s.left.toNat + data.length
  · rw [processChunk_of_completes hc.1 hc.2, left_absorbRest _ _ (by simp), completeBlock_left,
      List.length_drop, BitVec.toNat_ofNat]
    omega
  · rw [processChunk_of_not_completes (by omega), left_absorbRest _ _ h]
    omega

/-- R102. -/
theorem cnt_processChunk (data : List Byte) {s : State} (h : s.left.toNat ≤ 63) :
    cnt (processChunk data s)
      = (cnt s + 64 * ((s.left.toNat + data.length) / 64)) % 2 ^ 64 := by
  by_cases hc : 0 < s.left.toNat ∧ 64 ≤ s.left.toNat + data.length
  · rw [processChunk_of_completes hc.1 hc.2, cnt_absorbRest, cnt_completeBlock, List.length_drop]
    omega
  · rw [processChunk_of_not_completes (by omega), cnt_absorbRest]
    omega

/-- Settles O22 by R101 and R102. -/
theorem processChunkCountsItsBlocks : Obligations.ProcessChunkCountsItsBlocks := by
  intro data s h
  exact ⟨left_processChunk data h, cnt_processChunk data h⟩

/-! ### The three shapes of PROCESS -/

/-- Settles O19: phase 3 alone writes the lanes behind the leftover bytes. -/
theorem processAppendsAShortChunk : Obligations.ProcessAppendsAShortChunk := by
  intro n s hopen hshort
  have hlen : (dinLanes n.toNat s).length = n.toNat := dinLanes_length _ s (by omega)
  have happend : processChunk (dinLanes n.toNat s) s = appendTail (dinLanes n.toNat s) s :=
    processChunk_short _ s (by rw [hlen]; exact hshort)
  refine ⟨_, exec_process_of_open (by omega) hopen, ?_, ?_, ?_⟩
  · rw [happend, appendTail, respond]
  · rw [respond_left, left_processChunk _ (by omega), hlen, Nat.mod_eq_of_lt hshort]
  · intro j hj
    simp only [happend, respond_buf, appendTail_buf, writeBytes_getElem, hlen]
    split
    · rw [byteAt_eq_getElem (by omega)]
      simp [dinLanes]
    · rfl

/-- R103 for a chunk that completes exactly one block: the leftover bytes and its first bytes. -/
theorem processChunk_acc_of_one_block {data : List Byte} {s : State} (h : s.left.toNat ≤ 63)
    (hlo : 64 ≤ s.left.toNat + data.length) (hhi : s.left.toNat + data.length < 128) :
    (processChunk data s).acc = compressWords s.acc
      (s.buf.toList.take s.left.toNat ++ data.take (64 - s.left.toNat)) := by
  have hone : (s.left.toNat + data.length) / 64 = 1 := by omega
  have hlive : (s.buf.toList.take s.left.toNat).length = s.left.toNat := by simp; omega
  rw [processChunk_acc data s h, hone, foldBlocks_cons, foldBlocks_zero, List.take_append, hlive,
    List.take_of_length_le (by omega)]

/-- Settles O20: one block of R103, and what follows it in the chunk is the new leftover. -/
theorem processCompletesAPartialBlock : Obligations.ProcessCompletesAPartialBlock := by
  intro n s hopen hn h0 h63 hfill
  have hlen : (dinLanes n.toNat s).length = n.toNat := dinLanes_length _ s hn
  have hleft : (s.left.toNat + n.toNat) % 64 = s.left.toNat + n.toNat - 64 := by omega
  refine ⟨_, exec_process_of_open hn hopen, ?_, ?_, ?_, ?_, ?_⟩
  · rw [processChunk_frame]
    rfl
  · rw [respond_acc, processChunk_acc_of_one_block h63 (by omega) (by omega), dinLanes,
      List.take_take, min_eq_left (by omega)]
  · rw [cnt_respond, cnt_processChunk _ h63, hlen]
    omega
  · rw [respond_left, left_processChunk _ h63, hlen, hleft]
  · intro j hj
    have hbuf := congrArg (·[j]?) (processChunk_buf (dinLanes n.toNat s) s h63)
    have hlive : (s.buf.toList.take s.left.toNat).length = s.left.toNat := by simp; omega
    simp only [hlen, hleft] at hbuf
    rw [List.getElem?_take_of_lt hj, Vector.getElem?_toList] at hbuf
    rw [respond_buf, hbuf, List.getElem?_drop, List.getElem?_append_right (by omega), hlive,
      dinLanes, List.getElem?_take_of_lt (by omega), Vector.getElem?_toList]
    congr 1
    omega

/-- R100, phase 3 with nothing left. -/
theorem appendTail_nil (s : State) : appendTail [] s = s := by
  rw [appendTail, writeBytes_nil, List.length_nil, Nat.add_zero, BitVec.ofNat_toNat,
    BitVec.setWidth_eq]

/-- R100, phase 2 alone: one whole block with an empty buffer. -/
theorem processChunk_of_whole_block {data : List Byte} {s : State} (hleft : s.left = 0#7)
    (hlen : data.length = 64) : processChunk data s = compress data s := by
  have hblock : absorbBlocks (data.length / 64) data s = ([], compress data s) := by
    rw [hlen, show 64 / 64 = 0 + 1 from rfl, absorbBlocks_succ 0 s (by omega), absorbBlocks_zero,
      List.drop_of_length_le (by omega), List.take_of_length_le (by omega)]
  rw [processChunk_of_not_completes (.inl (by rw [hleft]; rfl)), absorbRest, hblock, appendTail_nil]

/-- Settles O21: the 64 lanes are compressed, and nothing reaches BUF. -/
theorem processCompressesAWholeBlock : Obligations.ProcessCompressesAWholeBlock := by
  intro s hopen hleft
  have hlanes : dinLanes 64 s = s.din.toList := List.take_of_length_le (by simp)
  have hblock : processChunk (dinLanes 64 s) s = compress s.din.toList s := by
    rw [hlanes, processChunk_of_whole_block hleft (by simp)]
  refine ⟨_, exec_process_of_open (n := 64#7) (le_refl 64) hopen, ?_, ?_⟩
  · rw [show (64#7).toNat = 64 from rfl, hblock, compress_eq, respond]
  · rw [show (64#7).toNat = 64 from rfl, hblock, cnt_respond, cnt_compress]

end Sys2Proof.Machine
end

section
/-!
PROOFS. Chunking: ProcessChunk depends on the bytes absorbed and not on how they are cut
(40_stream_and_finish.md R104, R105), since R103 describes A to D and the leftover bytes by the sequence Q
of leftover bytes and chunk.
-/
namespace Sys2Proof.Machine

/-! ### The blocks of a sequence that grows -/

/-- The whole blocks of `x ++ y` are those of `x`, then those of the bytes left over from `x` and `y`. -/
theorem foldBlocks_append_leftover (x y : List Byte) (w : Words) :
    foldBlocks ((x.length + y.length) / 64) (x ++ y) w
      = foldBlocks ((x.length % 64 + y.length) / 64) (x.drop (64 * (x.length / 64)) ++ y)
          (foldBlocks (x.length / 64) x w) := by
  have hk : 64 * (x.length / 64) ≤ x.length := Nat.mul_div_le _ _
  have hcount : (x.length + y.length) / 64 = x.length / 64 + (x.length % 64 + y.length) / 64 := by
    omega
  rw [hcount, foldBlocks_add, foldBlocks_append _ _ _ _ hk, List.drop_append_of_le_length hk]

/-- The bytes after the whole blocks of `x ++ y` are those after the whole blocks of what `x` leaves over
and `y`. -/
theorem drop_append_leftover (x y : List Byte) :
    (x ++ y).drop (64 * ((x.length + y.length) / 64))
      = (x.drop (64 * (x.length / 64)) ++ y).drop (64 * ((x.length % 64 + y.length) / 64)) := by
  have hk : 64 * (x.length / 64) ≤ x.length := Nat.mul_div_le _ _
  rw [← List.drop_append_of_le_length hk, List.drop_drop]
  congr 1
  omega

/-! ### Live bytes -/

/-- BUF[0..LEFT), the leftover bytes (R23). -/
def liveBytes (s : State) : List Byte := s.buf.toList.take s.left.toNat

theorem liveBytes_length {s : State} (h : s.left.toNat ≤ 63) :
    (liveBytes s).length = s.left.toNat := by
  rw [liveBytes, List.length_take, Vector.length_toList]
  omega

/-- R103: A to D and the leftover bytes after ProcessChunk, by the sequence Q. -/
theorem acc_processChunk (data : List Byte) {s : State} (h : s.left.toNat ≤ 63) :
    (processChunk data s).acc
      = foldBlocks ((liveBytes s ++ data).length / 64) (liveBytes s ++ data) s.acc := by
  rw [processChunk_acc data s h, List.length_append, liveBytes_length h, liveBytes]

theorem liveBytes_processChunk (data : List Byte) {s : State} (h : s.left.toNat ≤ 63) :
    liveBytes (processChunk data s)
      = (liveBytes s ++ data).drop (64 * ((liveBytes s ++ data).length / 64)) := by
  rw [liveBytes, left_processChunk data h, processChunk_buf data s h, List.length_append,
    liveBytes_length h, liveBytes]

/-! ### States that agree outside the stream's elements -/

/-- Two states that differ at most in what ProcessChunk writes: A to D, BUF, LEFT and CNT. -/
def SameOutsideStream (s t : State) : Prop :=
  t = { s with acc := t.acc, buf := t.buf, left := t.left, cntLo := t.cntLo, cntHi := t.cntHi }

theorem SameOutsideStream.symm {s t : State} (h : SameOutsideStream s t) : SameOutsideStream t s := by
  rw [SameOutsideStream] at h ⊢
  rw [h]

theorem SameOutsideStream.trans {s t u : State} (hst : SameOutsideStream s t)
    (htu : SameOutsideStream t u) : SameOutsideStream s u := by
  rw [SameOutsideStream] at hst htu ⊢
  rw [htu, hst]

theorem sameOutsideStream_processChunk (data : List Byte) (s : State) :
    SameOutsideStream s (processChunk data s) :=
  processChunk_frame data s

/-- What is left to show of two such states that they differ in stale bytes only. -/
theorem AgreeButStale.of_stream {s t : State} (hout : SameOutsideStream s t) (hacc : t.acc = s.acc)
    (hleft : t.left.toNat = s.left.toNat) (hcnt : cnt t = cnt s)
    (hlive : liveBytes t = liveBytes s) : AgreeButStale s t := by
  have hleft' : t.left = s.left := BitVec.eq_of_toNat_eq hleft
  obtain ⟨hlo, hhi⟩ := halves_eq_of_cnt_eq hcnt
  constructor
  · rw [SameOutsideStream, hacc, hleft', hlo, hhi] at hout
    exact hout
  · intro j hj hlt
    have hj' := congrArg (·[j]?) hlive
    simpa [liveBytes, hleft, hlt, hj] using hj'

/-- Agreeing states have the same leftover bytes. -/
theorem AgreeButStale.liveBytes_eq {s t : State} (h : AgreeButStale s t) :
    liveBytes t = liveBytes s := by
  apply List.ext_getElem
  · simp [liveBytes, h.left_eq]
  · intro j hj hj'
    simp only [liveBytes, List.length_take, Vector.length_toList, lt_min_iff] at hj'
    obtain ⟨hlt, hj64⟩ := hj'
    simpa [liveBytes] using h.live j hj64 hlt

/-- Agreeing states agree outside the stream's elements, too. -/
theorem AgreeButStale.sameOutsideStream {s t : State} (h : AgreeButStale s t) :
    SameOutsideStream s t := by
  rw [SameOutsideStream, h.rest]

/-! ### Chunk boundaries -/

/-- R104. -/
theorem agreeButStale_processChunk_append (x y : List Byte) {s : State} (h : s.left.toNat ≤ 63) :
    AgreeButStale (processChunk y (processChunk x s)) (processChunk (x ++ y) s) := by
  have hleft := left_processChunk x h
  have h' : (processChunk x s).left.toNat ≤ 63 := by omega
  have hmod : (liveBytes s ++ x).length % 64 = (liveBytes (processChunk x s)).length := by
    rw [liveBytes_length h', hleft, List.length_append, liveBytes_length h]
  apply AgreeButStale.of_stream
  · exact ((sameOutsideStream_processChunk x s).trans
      (sameOutsideStream_processChunk y _)).symm.trans (sameOutsideStream_processChunk _ s)
  · rw [acc_processChunk _ h, acc_processChunk y h', acc_processChunk x h, ← List.append_assoc,
      List.length_append, foldBlocks_append_leftover, List.length_append (as := liveBytes (processChunk x s)),
      hmod, liveBytes_processChunk x h]
  · rw [left_processChunk _ h, left_processChunk y h', hleft, List.length_append]
    omega
  · rw [cnt_processChunk _ h, cnt_processChunk y h', cnt_processChunk x h, hleft, List.length_append]
    omega
  · rw [liveBytes_processChunk _ h, liveBytes_processChunk y h', ← List.append_assoc,
      List.length_append, drop_append_leftover, List.length_append (as := liveBytes (processChunk x s)),
      hmod, liveBytes_processChunk x h]

/-- Settles O23 by the blocks and the leftover bytes of a sequence that grows. -/
theorem chunkBoundariesDoNotMatter : Obligations.ChunkBoundariesDoNotMatter := by
  intro x y s h
  exact agreeButStale_processChunk_append x y h

/-! ### The byte-serial form -/

/-- R33: ProcessChunk reads the leftover bytes only. -/
theorem AgreeButStale.processChunk {s t : State} (data : List Byte) (h : AgreeButStale s t)
    (hs : s.left.toNat ≤ 63) : AgreeButStale (processChunk data s) (processChunk data t) := by
  have ht : t.left.toNat ≤ 63 := by rw [h.left_eq]; exact hs
  have hacc : t.acc = s.acc := by rw [h.rest]
  have hcnt : cnt t = cnt s := by rw [h.rest]; rfl
  apply AgreeButStale.of_stream
  · exact (sameOutsideStream_processChunk data s).symm.trans
      (h.sameOutsideStream.trans (sameOutsideStream_processChunk data t))
  · rw [acc_processChunk data hs, acc_processChunk data ht, h.liveBytes_eq, hacc]
  · rw [left_processChunk data hs, left_processChunk data ht, h.left_eq]
  · rw [cnt_processChunk data hs, cnt_processChunk data ht, h.left_eq, hcnt]
  · rw [liveBytes_processChunk data hs, liveBytes_processChunk data ht, h.liveBytes_eq]

/-- R100 with no byte. -/
theorem processChunk_nil {s : State} (h : s.left.toNat ≤ 63) : processChunk [] s = s := by
  rw [processChunk_short [] s (Nat.lt_succ_of_le h), appendTail_nil]

/-- R100, phases 2 and 3 with no byte. -/
theorem absorbRest_nil (s : State) : absorbRest [] s = s := by
  rw [absorbRest, List.length_nil, Nat.zero_div, absorbBlocks_zero, appendTail_nil]

/-- R105: one byte that fills the buffer. -/
theorem absorbByte_of_full (b : Byte) {s : State} (h : s.left.toNat = 63) :
    absorbByte b s = completeBlock [b] s := by
  have hfull : s.left + 1#7 = 64#7 := BitVec.eq_of_toNat_eq (by rw [BitVec.toNat_add, h]; rfl)
  simp only [absorbByte, if_pos hfull, compress_eq, completeBlock_eq, cntAdd_cntLo, cntAdd_cntHi]

/-- R105: one byte that leaves room. -/
theorem absorbByte_of_room (b : Byte) {s : State} (h : s.left.toNat < 63) :
    absorbByte b s = appendTail [b] s := by
  have hroom : s.left + 1#7 ≠ 64#7 := by bv_omega
  rw [absorbByte, appendTail, List.length_singleton, BitVec.ofNat_add, BitVec.ofNat_toNat,
    BitVec.setWidth_eq]
  exact if_neg hroom

/-- R100 and R105 on one byte. -/
theorem processChunk_singleton (b : Byte) {s : State} (h : s.left.toNat ≤ 63) :
    processChunk [b] s = absorbByte b s := by
  rcases Nat.lt_or_eq_of_le h with hroom | hfull
  · rw [absorbByte_of_room b hroom]
    exact processChunk_short [b] s (Nat.succ_lt_succ hroom)
  · rw [absorbByte_of_full b hfull, processChunk_of_completes (by omega) (by simp [hfull]), hfull]
    exact absorbRest_nil _

/-- R105 by induction on the bytes, each absorbed as a chunk of its own. -/
theorem agreeButStale_foldl_absorbByte (data : List Byte) {s : State} (h : s.left.toNat ≤ 63) :
    AgreeButStale (data.foldl (fun u b => absorbByte b u) s) (processChunk data s) := by
  induction data generalizing s with
  | nil =>
    rw [processChunk_nil h]
    exact AgreeButStale.refl s
  | cons b data ih =>
    have hb : (absorbByte b s).left.toNat ≤ 63 := by
      have := left_processChunk [b] h
      rw [processChunk_singleton b h] at this
      omega
    have happend := agreeButStale_processChunk_append [b] data h
    rw [processChunk_singleton b h] at happend
    exact (ih hb).trans happend

/-- Settles O24 by the induction on the bytes. -/
theorem processChunkIsByteSerialAbsorb : Obligations.ProcessChunkIsByteSerialAbsorb := by
  intro data s h
  exact agreeButStale_foldl_absorbByte data h

end Sys2Proof.Machine
end

section
/-!
PROOFS. The padding sequencer (40_stream_and_finish.md R107 to R112): the padded tail as bytes, and the one
or two blocks FINISH compresses.
-/
namespace Sys2Proof.Machine

/-! ### The padded tail -/

/-- R110: P. -/
theorem padAmount_eq {l : Nat} (h : l ≤ 63) :
    padAmount l = if l ≤ 55 then 56 - l else 120 - l := by
  simp only [padAmount]
  split_ifs <;> omega

/-- R110: the leftover bytes and P. -/
theorem left_add_padAmount {l : Nat} (h : l ≤ 63) :
    l + padAmount l = if l ≤ 55 then 56 else 120 := by
  rw [padAmount_eq h]
  split_ifs <;> omega

/-- R111: P bytes of marker and zeros, and eight of length, follow the leftover bytes. -/
theorem paddedTail_length {s : State} (h : s.left.toNat ≤ 63) :
    (paddedTail s).length = if s.left.toNat ≤ 55 then 64 else 128 := by
  have hlive : (s.buf.toList.take s.left.toNat).length = s.left.toNat := liveBytes_length h
  simp only [paddedTail, List.length_append, hlive, List.length_singleton, zeros_length,
    bytesLe32_length, padAmount_eq h]
  split_ifs <;> omega

/-- Settles O29 by R110 and R111. -/
theorem paddingMakesOneOrTwoBlocks : Obligations.PaddingMakesOneOrTwoBlocks := by
  intro s h
  exact ⟨left_add_padAmount h, paddedTail_length h⟩

/-- R109: the length words FINISH appends are those of n when n is the count with LEFT, modulo 2^64. -/
theorem paddedTail_cntAdd {s : State} {n : Nat} (h : s.left.toNat ≤ 63)
    (hn : (cnt s + s.left.toNat) % 2 ^ 64 = n % 2 ^ 64) :
    paddedTail (cntAdd s.left.toNat s)
      = liveBytes s ++ [0x80#8] ++ zeros (padAmount s.left.toNat - 1)
          ++ bytesLe32 (BitVec.ofNat 32 (8 * n)) ++ bytesLe32 (BitVec.ofNat 32 (8 * n / 2 ^ 32)) := by
  obtain ⟨hlo, hhi⟩ := bits_of_cnt (s := cntAdd s.left.toNat s) (n := n)
    ((cnt_cntAdd s (by omega)).trans hn)
  rw [paddedTail, hlo, hhi, cntAdd_buf, cntAdd_left, liveBytes]

/-! ### The padding blocks -/

/-- One whole block. -/
theorem foldBlocks_one {data : List Byte} (w : Words) (h : data.length = 64) :
    foldBlocks 1 data w = compressWords w data := by
  have := foldBlocks_block 0 data [] w h
  rwa [List.append_nil, foldBlocks_zero] at this

/-- R112: A to D after the blocks of the tail. -/
theorem compressTail_acc_eq_foldBlocks {tail : List Byte} (s : State)
    (h : tail.length = 64 ∨ tail.length = 128) :
    (compressTail tail s).acc = foldBlocks (tail.length / 64) tail s.acc := by
  rw [compressTail_acc]
  rcases h with h | h
  · rw [if_neg (by omega), h, foldBlocks_one _ h, List.take_of_length_le (le_of_eq h)]
  · rw [if_pos h, h, show 128 / 64 = 1 + 1 from rfl, foldBlocks_succ, foldBlocks_cons,
      foldBlocks_zero, blockAt, Config.blockBytes, Nat.mul_one]

/-- R112: CNT after the blocks of the tail. -/
theorem cnt_compressTail {tail : List Byte} (s : State) (h : tail.length = 64 ∨ tail.length = 128) :
    cnt (compressTail tail s) = (cnt s + tail.length) % 2 ^ 64 := by
  rw [compressTail]
  rcases h with h | h
  · rw [h, if_neg (by decide), cnt_compress]
  · rw [h, if_pos rfl, cnt_compress, cnt_compress]
    omega

/-- R111: the tail FINISH compresses is 64 or 128 bytes. -/
theorem paddedTail_cntAdd_length {s : State} (h : s.left.toNat ≤ 63) :
    (paddedTail (cntAdd s.left.toNat s)).length = if s.left.toNat ≤ 55 then 64 else 128 := by
  rw [paddedTail_length (by rw [cntAdd_left]; exact h), cntAdd_left]

theorem paddedTail_cntAdd_length_cases {s : State} (h : s.left.toNat ≤ 63) :
    (paddedTail (cntAdd s.left.toNat s)).length = 64
      ∨ (paddedTail (cntAdd s.left.toNat s)).length = 128 := by
  rw [paddedTail_cntAdd_length h]
  split_ifs
  · exact .inl rfl
  · exact .inr rfl

/-- R112: A to D after FINISH, by the tail's blocks. -/
theorem finalise_acc_eq_foldBlocks {s : State} (h : s.left.toNat ≤ 63) :
    (finalise s).acc = foldBlocks ((paddedTail (cntAdd s.left.toNat s)).length / 64)
      (paddedTail (cntAdd s.left.toNat s)) s.acc := by
  rw [finalise_acc, compressTail_acc_eq_foldBlocks _ (paddedTail_cntAdd_length_cases h), cntAdd_acc]

/-- R107, R112: CNT after FINISH. -/
theorem cnt_finalise {s : State} (h : s.left.toNat ≤ 63) :
    cnt (finalise s)
      = (cnt s + s.left.toNat + (if s.left.toNat ≤ 55 then 64 else 128)) % 2 ^ 64 := by
  have hstore : ∀ u, cnt (storeDigest u) = cnt u := fun u =>
    cnt_congr (storeDigest_cntLo u) (storeDigest_cntHi u)
  rw [finalise, hstore, cnt_compressTail _ (paddedTail_cntAdd_length_cases h),
    paddedTail_cntAdd_length h, cnt_cntAdd s (by omega)]
  omega

/-- R107, "State written", with the response. -/
theorem respond_finalise_frame (r : List Byte) (s : State) :
    respond r (finalise s) = { s with
      acc := (finalise s).acc, cntLo := (finalise s).cntLo, cntHi := (finalise s).cntHi
      digest := (finalise s).digest, hexbuf := (finalise s).hexbuf, finished := true, resp := r } := by
  rw [finalise_frame]
  rfl

/-- Settles O27: the tail is one block. -/
theorem finishPadsOneBlock : Obligations.FinishPadsOneBlock := by
  intro copy s hopen h
  have h63 : s.left.toNat ≤ 63 := by omega
  have hzeros : padAmount s.left.toNat - 1 = 55 - s.left.toNat := by
    rw [padAmount_eq h63, if_pos h]
    omega
  refine ⟨_, exec_finish_of_open copy hopen, respond_finalise_frame _ s, ?_, ?_⟩
  · rw [respond_acc, finalise_acc_eq_foldBlocks h63, paddedTail_cntAdd_length h63, if_pos h,
      show 64 / 64 = 1 from rfl, foldBlocks_one _ (by rw [paddedTail_cntAdd_length h63, if_pos h]),
      paddedTail_cntAdd h63 rfl, hzeros, liveBytes]
  · rw [cnt_respond, cnt_finalise h63, if_pos h]

/-- Settles O28: the first block ends inside the zeros of the tail, 56 of which are left for the second. -/
theorem finishPadsTwoBlocks : Obligations.FinishPadsTwoBlocks := by
  intro copy s hopen hlo h63
  have hzeros : zeros (padAmount s.left.toNat - 1) = zeros (63 - s.left.toNat) ++ zeros 56 := by
    rw [padAmount_eq h63, if_neg (by omega), zeros, zeros, zeros, ← List.replicate_add]
    congr 1
    omega
  have hfirst : (liveBytes s ++ [0x80#8] ++ zeros (63 - s.left.toNat)).length = 64 := by
    simp only [List.length_append, liveBytes_length h63, List.length_singleton, zeros_length]
    omega
  have htail : paddedTail (cntAdd s.left.toNat s)
      = (liveBytes s ++ [0x80#8] ++ zeros (63 - s.left.toNat))
        ++ (zeros 56 ++ bytesLe32 (BitVec.ofNat 32 (8 * (cnt s + s.left.toNat)))
          ++ bytesLe32 (BitVec.ofNat 32 (8 * (cnt s + s.left.toNat) / 2 ^ 32))) := by
    rw [paddedTail_cntAdd h63 rfl, hzeros]
    simp only [List.append_assoc]
  refine ⟨_, exec_finish_of_open copy hopen, respond_finalise_frame _ s, ?_, ?_⟩
  · rw [respond_acc, finalise_acc_eq_foldBlocks h63, paddedTail_cntAdd_length h63,
      if_neg (by omega), htail, show 128 / 64 = 1 + 1 from rfl, foldBlocks_block 1 _ _ _ hfirst,
      foldBlocks_one _ rfl, liveBytes]
  · rw [cnt_respond, cnt_finalise h63, if_neg (by omega)]

end Sys2Proof.Machine
end

section
/-!
PROOFS. What a command does to the engine: only INIT, and PROCESS and FINISH while the engine is open, act on
it (20_memory.md R60, 10_state.md R34 item 4); what follows for its invariant and for the queries.
-/
namespace Sys2Proof.Machine

/-! ### Engines left as they were -/

theorem SameEngine.refl (s : State) : SameEngine s s := by
  constructor <;> rfl

theorem SameEngine.trans {s t u : State} (hst : SameEngine s t) (htu : SameEngine t u) :
    SameEngine s u where
  acc := htu.acc.trans hst.acc
  buf := htu.buf.trans hst.buf
  left := htu.left.trans hst.left
  cntLo := htu.cntLo.trans hst.cntLo
  cntHi := htu.cntHi.trans hst.cntHi
  finished := htu.finished.trans hst.finished
  digest := htu.digest.trans hst.digest
  hexbuf := htu.hexbuf.trans hst.hexbuf

theorem sameEngine_respond (r : List Byte) (s : State) : SameEngine s (respond r s) := by
  constructor <;> rfl

theorem sameEngine_respondUnspec (n : Nat) (s : State) : SameEngine s (respondUnspec n s) := by
  constructor <;> rfl

theorem sameEngine_clearErrs (s : State) : SameEngine s (clearErrs s) := by
  constructor <;> rfl

/-- R204. -/
theorem sameEngine_illegal (s : State) : SameEngine s (illegal s) :=
  (sameEngine_setErr .illegal s).trans (sameEngine_respond [] _)

/-- The lanes and the host's events are no part of the engine. -/
theorem sameEngine_withPort (s : State) (din : Vector Byte 64) (host : List HostEvent) :
    SameEngine s { s with din := din, host := host } := by
  constructor <;> rfl

theorem sameEngine_withDin (s : State) (din : Vector Byte 64) : SameEngine s { s with din := din } :=
  sameEngine_withPort s din s.host

/-- R60, R34 item 4: a command leaves the engine alone, unless it is INIT, or PROCESS or FINISH of an
open engine. -/
theorem exec_engine_cases {i : Instr} {s t : State} (h : exec i s = .next t) :
    SameEngine s t
      ∨ (i = .init ∧ t = respond [] (initEngine s))
      ∨ (∃ n, i = .process n ∧ n.toNat ≤ 64 ∧ s.finished = false
          ∧ t = respond [] (processChunk (dinLanes n.toNat s) s))
      ∨ ∃ copy, i = .finish copy ∧ s.finished = false
          ∧ t = respond (if copy then (finalise s).digest.toList else []) (finalise s) := by
  cases i with
  | init =>
    cases h
    exact .inr (.inl ⟨rfl, rfl⟩)
  | process n =>
    rcases execProcess_cases h with ⟨-, rfl⟩ | ⟨-, -, rfl⟩ | ⟨hn, hopen, rfl⟩
    · exact .inl (sameEngine_illegal s)
    · exact .inl ((sameEngine_setErr _ s).trans (sameEngine_respond _ _))
    · exact .inr (.inr (.inl ⟨n, rfl, hn, hopen, rfl⟩))
  | finish copy =>
    rcases execFinish_cases h with ⟨-, rfl⟩ | ⟨hopen, rfl⟩
    · exact .inl ((sameEngine_setErr _ s).trans (sameEngine_respond _ _))
    · exact .inr (.inr (.inr ⟨copy, rfl, hopen, rfl⟩))
  | getDigest | getHex =>
    simp only [exec, execGetDigest, execGetHex] at h
    split at h <;> cases h
    · exact .inl (sameEngine_respond _ s)
    · exact .inl ((sameEngine_setErr _ s).trans (sameEngine_respondUnspec _ _))
  | hexDecode =>
    rcases execHexDecode_cases h with ⟨-, rfl⟩ | ⟨out, -, rfl⟩
    · exact .inl ((sameEngine_setErr _ s).trans (sameEngine_respondUnspec _ _))
    · exact .inl (sameEngine_respond _ s)
  | clearStatus =>
    cases h
    exact .inl ((sameEngine_clearErrs s).trans (sameEngine_respond _ _))
  | nop | hexEncode | readStatus =>
    cases h
    exact .inl (sameEngine_respond _ s)

/-- R60. -/
theorem exec_sameEngine_of_other {i : Instr} {s t : State} (hinit : i ≠ .init)
    (hprocess : ∀ n, i ≠ .process n) (hfinish : ∀ copy, i ≠ .finish copy) (h : exec i s = .next t) :
    SameEngine s t := by
  rcases exec_engine_cases h with hsame | ⟨hi, -⟩ | ⟨n, hi, -⟩ | ⟨copy, hi, -⟩
  · exact hsame
  · exact absurd hi hinit
  · exact absurd hi (hprocess n)
  · exact absurd hi (hfinish copy)

/-- R34 item 4. -/
theorem exec_sameEngine_of_finished {i : Instr} {s t : State} (hinit : i ≠ .init)
    (hfin : s.finished = true) (h : exec i s = .next t) : SameEngine s t := by
  have hclosed : s.finished ≠ false := by rw [hfin]; decide
  rcases exec_engine_cases h with hsame | ⟨hi, -⟩ | ⟨n, -, -, hopen, -⟩ | ⟨copy, -, hopen, -⟩
  · exact hsame
  · exact absurd hi hinit
  · exact absurd hopen hclosed
  · exact absurd hopen hclosed

/-- Settles O57 by the commands that can act on the engine. -/
theorem onlyThreeCommandsChangeTheEngine : Obligations.OnlyThreeCommandsChangeTheEngine := by
  intro i s t hinit hprocess hfinish h
  exact exec_sameEngine_of_other hinit hprocess hfinish h

/-- Settles O58: PROCESS and FINISH act on an open engine only. -/
theorem finishedEngineIsFrozen : Obligations.FinishedEngineIsFrozen := by
  intro i s t hinit hfin h
  exact exec_sameEngine_of_finished hinit hfin h

/-- Settles O40: the codec is among the other commands, and a valid text's answer is a function of the
lanes. -/
theorem codecCommandsAreStateless : Obligations.CodecCommandsAreStateless := by
  intro i s u t v hcodec hdin ht hv
  have hlanes : ∀ n, dinLanes n s = dinLanes n u := fun n => by rw [dinLanes, dinLanes, hdin]
  rcases hcodec with rfl | ⟨cap, rfl⟩
  · refine ⟨exec_sameEngine_of_other (by simp) (by simp) (by simp) ht, fun hvalid => ?_⟩
    obtain ⟨out, hout⟩ := Option.ne_none_iff_exists'.1 (hvalid rfl)
    rw [exec_hexDecode_of_some hout] at ht
    rw [exec_hexDecode_of_some ((congrArg hexDecode (hlanes 32)).symm.trans hout)] at hv
    cases ht
    cases hv
    exact ⟨rfl, rfl, rfl, rfl, rfl⟩
  · refine ⟨exec_sameEngine_of_other (by simp) (by simp) (by simp) ht, fun _ => ?_⟩
    rw [exec, execHexEncode] at ht hv
    cases ht
    cases hv
    exact ⟨by rw [respond_resp, respond_resp, hlanes], rfl, rfl, rfl, rfl⟩

/-! ### Queries -/

/-- R119: a query of a finished engine only answers. -/
theorem exec_query_of_finished {j : Instr} {s t : State} (hfin : s.finished = true)
    (hj : j ∈ [Instr.getDigest, Instr.getHex, Instr.readStatus]) (h : exec j s = .next t) :
    ∃ r, t = respond r s := by
  simp only [List.mem_cons, List.not_mem_nil, or_false] at hj
  rcases hj with rfl | rfl | rfl
  · rw [exec_getDigest_of_finished hfin] at h
    cases h
    exact ⟨_, rfl⟩
  · rw [exec_getHex_of_finished hfin] at h
    cases h
    exact ⟨_, rfl⟩
  · cases h
    exact ⟨_, rfl⟩

/-- R119: no query of a finished engine reads the response before it. -/
theorem exec_query_respond {i : Instr} {s : State} (r : List Byte) (hfin : s.finished = true)
    (hi : i ∈ [Instr.getDigest, Instr.getHex, Instr.readStatus]) :
    exec i (respond r s) = exec i s := by
  have hfin' : (respond r s).finished = true := hfin
  simp only [List.mem_cons, List.not_mem_nil, or_false] at hi
  rcases hi with rfl | rfl | rfl
  · rw [exec_getDigest_of_finished hfin', exec_getDigest_of_finished hfin]
    rfl
  · rw [exec_getHex_of_finished hfin', exec_getHex_of_finished hfin]
    rfl
  · rfl

/-- Settles O33: the query before changed the response alone. -/
theorem queriesAreIdempotent : Obligations.QueriesAreIdempotent := by
  intro i j s t hfin hi hj h
  obtain ⟨r, rfl⟩ := exec_query_of_finished hfin hj h
  exact exec_query_respond r hfin hi

/-! ### One cause per command -/

/-- R9, R80: the word of a well-formed command runs the command. -/
theorem transact_encode {i : Instr} (hi : i.wellFormed = true) (din : Vector Byte 64) (s : State) :
    transact (encode i) din s = exec i { s with din := din } := by
  rw [transact, runWord, decode_encode hi]

/-- R201. -/
@[simp] theorem errFlag_initEngine (f : ErrFlag) (s : State) : errFlag f (initEngine s) = false := by
  cases f <;> rfl

/-- R203. -/
@[simp] theorem errFlag_clearErrs (f : ErrFlag) (s : State) : errFlag f (clearErrs s) = false := by
  cases f <;> rfl

/-- R222: a command word clears the flags, or sets anew at most the one flag g. -/
theorem transact_sets_at_most_one {w : Word} {din : Vector Byte 64} {s t : State}
    (h : transact w din s = .next t) :
    ∃ g, ∀ f, errFlag f s = false → errFlag f t = true → f = g := by
  have of_none_set : (∀ f, errFlag f t = true → errFlag f s = true) →
      ∃ g, ∀ f, errFlag f s = false → errFlag f t = true → f = g := fun hnone =>
    ⟨.illegal, fun f hf hft => absurd (hnone f hft) (Bool.eq_false_iff.1 hf)⟩
  by_cases hinit : w = encode .init
  · rw [hinit, transact_encode rfl, exec_init] at h
    cases h
    exact of_none_set fun f hft => by simp at hft
  by_cases hclear : w = encode .clearStatus
  · rw [hclear, transact_encode rfl, exec_clearStatus] at h
    cases h
    exact of_none_set fun f hft => by simp at hft
  rcases transact_errFlag_cases h hinit hclear with hsame | ⟨g, hg⟩
  · exact of_none_set fun f hft => by rwa [hsame] at hft
  · refine ⟨g, fun f hf hft => ?_⟩
    rw [hg, errFlag_setErr, hf, Bool.or_false] at hft
    exact of_decide_eq_true hft

/-- Settles O12: both flags set anew are that one. -/
theorem oneCausePerCommand : Obligations.OneCausePerCommand := by
  intro w din s t h f g hf hft hg hgt
  obtain ⟨e, he⟩ := transact_sets_at_most_one h
  rw [he f hf hft, he g hg hgt]

/-! ### The invariant -/

/-- R34, R250: the values after reset and INIT meet the invariant. -/
theorem AtResetValues.invariant {s : State} (h : AtResetValues s) (hresp : s.resp = []) :
    Invariant s := by
  have hclosed : s.finished ≠ true := by rw [h.finished]; decide
  constructor
  case left_le => rw [h.left]; decide
  case cnt_open =>
    intro _
    rw [cnt, h.cntHi, h.cntLo]
    rfl
  case resp_le => simp [hresp]
  all_goals exact fun hfin => absurd hfin hclosed

/-- The invariant speaks of the engine and the response. -/
theorem Invariant.of_sameEngine {s t : State} (hinv : Invariant s) (h : SameEngine s t)
    (hresp : t.resp.length ≤ 33) : Invariant t := by
  have hcnt : cnt t = cnt s := cnt_congr h.cntLo h.cntHi
  constructor
  case left_le => rw [h.left]; exact hinv.left_le
  case cnt_open => rw [h.finished, hcnt]; exact hinv.cnt_open
  case cnt_finished => rw [h.finished, hcnt, h.left]; exact hinv.cnt_finished
  case digest_eq => rw [h.finished, h.digest, h.acc]; exact hinv.digest_eq
  case hexbuf_eq => rw [h.finished, h.hexbuf, h.digest]; exact hinv.hexbuf_eq
  case resp_le => exact hresp

/-- R101, R102: ProcessChunk keeps the invariant of an open engine. -/
theorem Invariant.processChunk {s : State} (hinv : Invariant s) (hopen : s.finished = false)
    (data : List Byte) : Invariant (processChunk data s) := by
  have hout := sameOutsideStream_processChunk data s
  have hclosed : (Machine.processChunk data s).finished ≠ true := by
    rw [hout, hopen]
    decide
  have hcnt := hinv.cnt_open hopen
  constructor
  case left_le =>
    rw [left_processChunk data hinv.left_le]
    omega
  case cnt_open =>
    intro _
    rw [cnt_processChunk data hinv.left_le]
    omega
  case resp_le =>
    rw [hout]
    exact hinv.resp_le
  all_goals exact fun hfin => absurd hfin hclosed

/-- R107 to R115: FINISH of an open engine establishes what is said of a finished one. -/
theorem Invariant.finalise {s : State} (hinv : Invariant s) (hopen : s.finished = false) :
    Invariant (finalise s) := by
  have hcnt := hinv.cnt_open hopen
  constructor
  case left_le => rw [finalise_left]; exact hinv.left_le
  case cnt_open => simp
  case cnt_finished =>
    intro _
    have hleft := hinv.left_le
    rw [cnt_finalise hleft, finalise_left]
    split_ifs <;> omega
  case digest_eq => exact fun _ => finalise_digest s
  case hexbuf_eq => exact fun _ => by rw [finalise_hexbuf, finalise_digest]
  case resp_le =>
    rw [finalise_frame]
    exact hinv.resp_le

/-- R34: every command keeps the invariant. -/
theorem Invariant.exec {i : Instr} {s t : State} (hinv : Invariant s) (h : exec i s = .next t) :
    Invariant t := by
  have hresp := exec_resp_length_le h
  rcases exec_engine_cases h with hsame | ⟨-, rfl⟩ | ⟨n, -, -, hopen, rfl⟩ | ⟨copy, -, hopen, rfl⟩
  · exact hinv.of_sameEngine hsame hresp
  · exact (atResetValues_respond_initEngine [] s).invariant rfl
  · exact (hinv.processChunk hopen _).of_sameEngine (sameEngine_respond _ _) hresp
  · exact (hinv.finalise hopen).of_sameEngine (sameEngine_respond _ _) hresp

/-- R34: every step keeps the invariant. -/
theorem Invariant.step {s t : State} (hinv : Invariant s) (h : step s = .next t) : Invariant t := by
  rcases step_cases h with ⟨-, rfl⟩ | ⟨rest, -, rfl⟩ | ⟨w, din, rest, -, ht⟩
  · exact hinv
  · exact (atResetValues_resetInput _).invariant rfl
  · rcases transact_cases ht with ⟨i, -, hi⟩ | ⟨-, rfl⟩
    · exact (hinv.of_sameEngine (sameEngine_withPort s din rest) hinv.resp_le).exec hi
    · exact hinv.of_sameEngine ((sameEngine_withPort s din rest).trans (sameEngine_illegal _))
        (Nat.zero_le _)

/-- Settles O2 by the reset values. -/
theorem resetMeetsTheInvariant : Obligations.ResetMeetsTheInvariant := by
  exact atResetValues_reset.invariant rfl

/-- Settles O3, one kind of event at a time. -/
theorem everyStepKeepsTheInvariant : Obligations.EveryStepKeepsTheInvariant := by
  intro s t hinv h
  exact hinv.step h

end Sys2Proof.Machine
end

section
/-!
PROOFS. Steps and runs: what one step does with the host's events, the instances of a system, and a digest
over the steps that do not start a new computation.
-/
namespace Sys2Proof.Machine

/-! ### One step -/

/-- R255, log entry 1: the idle wait. -/
theorem step_of_host_eq_nil {s : State} (h : s.host = []) : step s = .next s := by
  rw [step, takeEvent, h]

/-- R255: a pending transaction is taken off the host's events and runs. -/
theorem step_of_host_eq_command_cons {s : State} {w : Word} {din : Vector Byte 64}
    {rest : List HostEvent} (h : s.host = .command w din :: rest) :
    step s = transact w din { s with host := rest } := by
  rw [step, takeEvent, h]

/-- R80: a decoded word runs its command. -/
theorem transact_of_decode_ok {w : Word} {i : Instr} (h : decode w = .ok i) (din : Vector Byte 64)
    (s : State) : transact w din s = exec i { s with din := din } := by
  rw [transact, runWord, h]

/-- What `decodeTableWord` reads is the command of the word that `withFetchWord` presents. -/
theorem decode_tableWord {nbits w : Nat} {i : Instr} (h : decodeTableWord nbits w = some i) :
    decode (tableWord nbits w) = .ok i := by
  rw [decodeTableWord] at h
  split at h
  · next j hj =>
    cases h
    exact hj
  · cases h

/-- A presented word runs on the state itself, since it comes with the lanes already there. -/
theorem step_withFetchWord {nbits w : Nat} {i : Instr} (s : State)
    (h : decodeTableWord nbits w = some i) : step (s.withFetchWord nbits w) = exec i s := by
  have hhost : (s.withFetchWord nbits w).host = .command (tableWord nbits w) s.din :: s.host := by
    rw [State.withFetchWord, presentWord]
  rw [step_of_host_eq_command_cons hhost, transact_of_decode_ok (decode_tableWord h),
    State.withFetchWord, presentWord]

/-- Settles O10 by the branch of the step for no event. -/
theorem stepWaitsWithoutAnEvent : Obligations.StepWaitsWithoutAnEvent := by
  intro s h
  exact step_of_host_eq_nil h

/-- R229: one engine of a system steps as a block alone, on the system's counter. -/
theorem stepEngine_of_step {k : Nat} {es : Engines} {s t : State} (hs : es.states[k]? = some s)
    (ht : step { s with draws := es.draws } = .next t) :
    stepEngine k es = .next { states := es.states.set k t, draws := t.draws } := by
  rw [stepEngine, hs]
  dsimp only
  rw [ht]

/-- Settles O9, one kind of event at a time, and one engine of a system by its own step. -/
theorem stepRunsTheDecodedCommand : Obligations.StepRunsTheDecodedCommand := by
  refine ⟨fun s w din rest i hhost hw => ?_, fun s rest hhost => step_of_host_eq_reset_cons hhost,
    fun s nbits w i h => step_withFetchWord s h, fun k es s hs => ?_⟩
  · rw [step_of_host_eq_command_cons hhost, transact_of_decode_ok hw]
  · obtain ⟨t, ht⟩ := exists_step_eq_next { s with draws := es.draws }
    exact ⟨t, ht, stepEngine_of_step hs ht, step_draws_le ht⟩

/-- Settles O60: a step of one engine sets its own place in the list, or nothing. -/
theorem instancesShareNoState : Obligations.InstancesShareNoState := by
  refine ⟨fun k es es' h => ?_, fun n => ⟨List.length_replicate, fun s hs => List.eq_of_mem_replicate hs⟩⟩
  rcases stepEngine_cases h with ⟨-, rfl⟩ | ⟨s, t, -, -, rfl⟩
  · exact ⟨rfl, fun _ _ => rfl⟩
  · exact ⟨List.length_set, fun j hj => List.getElem?_set_ne hj.symm⟩

/-! ### The host's events over a command -/

/-- No command reaches the host's pending events. -/
theorem exec_host {i : Instr} {s t : State} (h : exec i s = .next t) : t.host = s.host := by
  cases i with
  | process n =>
    rcases execProcess_cases h with ⟨-, rfl⟩ | ⟨-, -, rfl⟩ | ⟨-, -, rfl⟩
    · simp [illegal]
    · simp
    · rw [respond_host, processChunk_frame]
  | finish copy =>
    rcases execFinish_cases h with ⟨-, rfl⟩ | ⟨-, rfl⟩
    · simp
    · rw [respond_host, finalise_frame]
  | getDigest | getHex =>
    simp only [exec, execGetDigest, execGetHex] at h
    split at h <;> (cases h; simp)
  | hexDecode =>
    rcases execHexDecode_cases h with ⟨-, rfl⟩ | ⟨out, -, rfl⟩ <;> simp
  | nop | init | hexEncode | readStatus | clearStatus =>
    cases h
    simp

/-- The same for every word. -/
theorem transact_host {w : Word} {din : Vector Byte 64} {s t : State}
    (h : transact w din s = .next t) : t.host = s.host := by
  rcases transact_cases h with ⟨i, -, hi⟩ | ⟨-, rfl⟩
  · have := exec_host hi
    exact this
  · simp [illegal]

/-- A step takes the next event off, and there is none to take off when it waits. -/
theorem step_host {s t : State} (h : step s = .next t) : t.host = s.host.tail := by
  rcases step_cases h with ⟨hhost, rfl⟩ | ⟨rest, hhost, rfl⟩ | ⟨w, din, rest, hhost, ht⟩
  · rw [hhost, List.tail_nil]
  · rw [hhost, List.tail_cons, resetInput, respond_host, initEngine_host]
  · rw [hhost, List.tail_cons, transact_host ht]

/-! ### A digest over steps that start no new computation -/

/-- R34 item 4 for every word but INIT's, legal or not. -/
theorem transact_sameEngine_of_finished {w : Word} {din : Vector Byte 64} {s t : State}
    (hinit : w ≠ encode .init) (hfin : s.finished = true) (h : transact w din s = .next t) :
    SameEngine s t := by
  rcases transact_cases h with ⟨i, hw, hi⟩ | ⟨-, rfl⟩
  · have hi' : i ≠ .init := by
      rintro rfl
      exact hinit (encode_of_decode hw).symm
    exact (sameEngine_withDin s din).trans (exec_sameEngine_of_finished hi' hfin hi)
  · exact (sameEngine_withDin s din).trans (sameEngine_illegal _)

/-- R258: a step of a finished engine leaves it alone when its event starts no new computation. -/
theorem step_sameEngine_of_finished {s t : State} (hfin : s.finished = true)
    (hkeeps : ∀ e ∈ s.host.head?, keepsDigest e = true) (h : step s = .next t) : SameEngine s t := by
  rcases step_cases h with ⟨-, rfl⟩ | ⟨rest, hhost, -⟩ | ⟨w, din, rest, hhost, ht⟩
  · exact SameEngine.refl _
  · have := hkeeps .reset (by rw [hhost]; rfl)
    cases this
  · have hw : w ≠ encode .init := of_decide_eq_true (hkeeps (.command w din) (by rw [hhost]; rfl))
    have hhost' : SameEngine s { s with host := rest } := sameEngine_withPort s s.din rest
    exact hhost'.trans (transact_sameEngine_of_finished hw hfin ht)

/-- A run goes on from the state its first step leads to. -/
theorem run_succ {s t : State} (k : Nat) (h : step s = .next t) :
    Host.Core.run core (k + 1) s = Host.Core.run core k t := by
  have hcore : core.step s = .next t := h
  simp only [Host.Core.run, hcore]

/-- R258 over a run. -/
theorem run_sameEngine_of_finished (k : Nat) {s t : State} (hfin : s.finished = true)
    (hkeeps : ∀ e ∈ s.host.take k, keepsDigest e = true) (h : Host.Core.run core k s = .next t) :
    SameEngine s t := by
  induction k generalizing s with
  | zero =>
    cases h
    exact SameEngine.refl _
  | succ k ih =>
    obtain ⟨u, hu⟩ := exists_step_eq_next s
    rw [run_succ k hu] at h
    have hsame : SameEngine s u := by
      refine step_sameEngine_of_finished hfin (fun e he => hkeeps e (List.mem_of_mem_head? ?_)) hu
      rwa [List.head?_take, if_neg (Nat.succ_ne_zero k)]
    have hrest : ∀ e ∈ u.host.take k, keepsDigest e = true := by
      have htail : u.host.take k = (s.host.take (k + 1)).tail := by
        rw [step_host hu, List.tail_take_eq_take_tail, Nat.add_sub_cancel]
      rw [htail]
      exact fun e he => hkeeps e (List.mem_of_mem_tail he)
    exact hsame.trans (ih (hsame.finished.trans hfin) hrest h)

/-- Settles O59 by the run. -/
theorem digestStaysUntilInitOrReset : Obligations.DigestStaysUntilInitOrReset := by
  intro k s t hfin hkeeps h
  exact run_sameEngine_of_finished k hfin hkeeps h

end Sys2Proof.Machine
end

section
/-!
PROOFS. Whole messages: `Represents m` is what a streaming engine keeps of a message m. INIT establishes it
for the empty message, PROCESS extends it, the other commands keep it, and FINISH turns it into the digest
of m (40_stream_and_finish.md R103, R107 to R115, R120).
-/
namespace Sys2Proof.Machine

/-! ### The message an engine holds -/

theorem Represents.left_le {m : List Byte} {s : State} (h : Represents m s) : s.left.toNat ≤ 63 := by
  rw [h.left]
  omega

theorem Represents.liveBytes_eq {m : List Byte} {s : State} (h : Represents m s) :
    liveBytes s = m.drop (64 * (m.length / 64)) := by
  rw [liveBytes, h.left, h.buf]

/-- The message held is a matter of the engine alone. -/
theorem Represents.of_sameEngine {m : List Byte} {s t : State} (h : Represents m s)
    (hsame : SameEngine s t) : Represents m t where
  finished := hsame.finished.trans h.finished
  acc := hsame.acc.trans h.acc
  cnt := (cnt_congr hsame.cntLo hsame.cntHi).trans h.cnt
  left := (congrArg BitVec.toNat hsame.left).trans h.left
  buf := by rw [hsame.buf, h.buf]

/-- R201: after INIT no byte is held. -/
theorem represents_nil_initEngine (s : State) : Represents [] (initEngine s) := by
  constructor
  case cnt => rw [cnt, initEngine_cntHi, initEngine_cntLo]; rfl
  all_goals simp

/-- R103: absorbing a chunk appends it to the message held. -/
theorem Represents.processChunk {m : List Byte} {s : State} (h : Represents m s) (data : List Byte) :
    Represents (m ++ data) (processChunk data s) := by
  have hleft : (Machine.processChunk data s).left.toNat = (m ++ data).length % 64 := by
    rw [left_processChunk data h.left_le, h.left, List.length_append]
    omega
  have hlen : (liveBytes s ++ data).length = m.length % 64 + data.length := by
    rw [List.length_append, liveBytes_length h.left_le, h.left]
  constructor
  case finished =>
    rw [sameOutsideStream_processChunk data s]
    exact h.finished
  case acc =>
    rw [acc_processChunk data h.left_le, hlen, h.liveBytes_eq, h.acc, List.length_append,
      foldBlocks_append_leftover]
  case cnt =>
    rw [cnt_processChunk data h.left_le, h.cnt, h.left, List.length_append]
    omega
  case left => exact hleft
  case buf =>
    have hlive := liveBytes_processChunk data h.left_le
    rw [liveBytes, hleft] at hlive
    rw [hlive, hlen, h.liveBytes_eq, List.length_append, drop_append_leftover]

/-- R106, R103: PROCESS of an engine that holds m. -/
theorem exec_process_of_represents {m : List Byte} {n : BitVec 7} {s : State} (h : Represents m s)
    (hn : n.toNat ≤ 64) :
    ∃ t, exec (.process n) s = .next t ∧ Represents (m ++ dinLanes n.toNat s) t :=
  ⟨_, exec_process_of_open hn h.finished, (h.processChunk _).of_sameEngine (sameEngine_respond _ _)⟩

/-- R201. -/
theorem represents_nil_respond_initEngine (r : List Byte) (s : State) :
    Represents [] (respond r (initEngine s)) :=
  (represents_nil_initEngine s).of_sameEngine (sameEngine_respond _ _)

/-- Settles O50 by INIT's values and R103. -/
theorem processExtendsTheMessage : Obligations.ProcessExtendsTheMessage := by
  refine ⟨fun s => ⟨_, exec_init s, represents_nil_respond_initEngine [] s⟩, fun m n s h hn => ?_⟩
  exact exec_process_of_represents h hn

/-- Settles O53: neither an illegal word nor one of the other commands changes the engine. -/
theorem otherCommandsKeepTheMessage : Obligations.OtherCommandsKeepTheMessage := by
  intro m w din s t h hother ht
  have hdin := h.of_sameEngine (sameEngine_withDin s din)
  rcases transact_cases ht with ⟨i, hw, hi⟩ | ⟨-, rfl⟩
  · obtain ⟨hinit, hprocess, hfinish⟩ := hother i hw
    exact hdin.of_sameEngine (exec_sameEngine_of_other hinit hprocess hfinish hi)
  · exact hdin.of_sameEngine (sameEngine_illegal _)

/-! ### The digest of the message held -/

/-- R108 to R111: the tail is what the message leaves over after its whole blocks, padded as the whole
message is. -/
theorem paddedTail_of_represents {m : List Byte} {s : State} (h : Represents m s) :
    paddedTail (cntAdd s.left.toNat s) = m.drop (64 * (m.length / 64)) ++ md5Padding m.length := by
  have hcount : (cnt s + s.left.toNat) % 2 ^ 64 = m.length % 2 ^ 64 := by
    rw [h.cnt, h.left]
    omega
  have hzeros : padAmount s.left.toNat - 1 = (119 - m.length % 64) % 64 := by
    rw [padAmount_eq h.left_le, h.left]
    split_ifs <;> omega
  rw [paddedTail_cntAdd h.left_le hcount, hzeros, h.liveBytes_eq, md5Padding]
  simp only [List.append_assoc]

/-- R120: the streaming engine has compressed the blocks of the whole padded message. -/
theorem finalise_acc_of_represents {m : List Byte} {s : State} (h : Represents m s) :
    (finalise s).acc = foldBlocks ((m ++ md5Padding m.length).length / 64)
      (m ++ md5Padding m.length) iv := by
  have hdrop : (m.drop (64 * (m.length / 64))).length = m.length % 64 := by
    rw [List.length_drop]
    omega
  rw [finalise_acc_eq_foldBlocks h.left_le, paddedTail_of_represents h, h.acc, List.length_append,
    List.length_append, hdrop, foldBlocks_append_leftover]

/-- R113, R120. -/
theorem finalise_digest_of_represents {m : List Byte} {s : State} (h : Represents m s) :
    (finalise s).digest.toList = md5 m := by
  rw [finalise_digest, finalise_acc_of_represents h, md5]

/-- R114, R120. -/
theorem finalise_hexbuf_of_represents {m : List Byte} {s : State} (h : Represents m s) :
    (finalise s).hexbuf.toList = hexEncode (md5 m) 33 := by
  rw [finalise_hexbuf, ← finalise_digest, finalise_digest_of_represents h]

/-- R107 to R116: FINISH of an engine that holds m. -/
theorem exec_finish_of_represents {m : List Byte} (copy : Bool) {s : State} (h : Represents m s) :
    exec (.finish copy) s = .next (respond (if copy then md5 m else []) (finalise s)) := by
  rw [exec_finish_of_open copy h.finished, finalise_digest_of_represents h]

/-- Settles O51 by the blocks of the whole padded message. -/
theorem finishGivesTheDigestOfTheMessage : Obligations.FinishGivesTheDigestOfTheMessage := by
  intro m copy s h
  exact ⟨_, exec_finish_of_represents copy h, finalise_digest_of_represents h,
    finalise_hexbuf_of_represents h, rfl⟩

/-! ### A run of INIT, PROCESS commands and FINISH -/

/-- A run in two parts. -/
theorem run_add {s t : State} {j : Nat} (k : Nat) (h : Host.Core.run core j s = .next t) :
    Host.Core.run core (j + k) s = Host.Core.run core k t := by
  induction j generalizing s with
  | zero =>
    cases h
    rw [Nat.zero_add]
  | succ j ih =>
    obtain ⟨u, hu⟩ := exists_step_eq_next s
    rw [run_succ j hu] at h
    rw [Nat.add_right_comm, run_succ _ hu, ih h]

/-- The event of a well-formed command runs the command on its lanes. -/
theorem step_of_host_eq_commandEvent_cons {i : Instr} {bs : List Byte} {rest : List HostEvent}
    {s : State} (hi : i.wellFormed = true) (h : s.host = commandEvent i bs :: rest) :
    step s = exec i { s with din := packBytes 64 bs, host := rest } := by
  rw [step_of_host_eq_command_cons h, transact_encode hi]

/-- A sequence that fits the array is read back from it. -/
theorem take_packBytes {n : Nat} {bs : List Byte} (h : bs.length ≤ n) :
    (packBytes n bs).toList.take bs.length = bs := by
  apply List.ext_getElem
  · simpa using h
  · intro i _ hi
    simp [byteAt_eq_getElem hi]

/-- One PROCESS event of a chunk appends the chunk. -/
theorem step_processEvent {m chunk : List Byte} {rest : List HostEvent} {s : State}
    (h : Represents m s) (hlen : chunk.length ≤ 64) (hhost : s.host = processEvent chunk :: rest) :
    ∃ t, step s = .next t ∧ Represents (m ++ chunk) t ∧ t.host = rest := by
  have hn : (BitVec.ofNat 7 chunk.length).toNat = chunk.length := by
    rw [BitVec.toNat_ofNat]
    omega
  have hwf : (Instr.process (BitVec.ofNat 7 chunk.length)).wellFormed = true :=
    decide_eq_true (hn.trans_le hlen)
  obtain ⟨t, ht, hrep⟩ := exec_process_of_represents
    (h.of_sameEngine (sameEngine_withPort s (packBytes 64 chunk) rest)) (hn.trans_le hlen)
  refine ⟨t, ?_, ?_, exec_host ht⟩
  · rw [step_of_host_eq_commandEvent_cons hwf hhost, ht]
  · rwa [dinLanes, hn, take_packBytes hlen] at hrep

/-- PROCESS events append their chunks in order. -/
theorem run_processEvents (chunks : List (List Byte)) {m : List Byte} {rest : List HostEvent}
    {s : State} (h : Represents m s) (hlen : ∀ c ∈ chunks, c.length ≤ 64)
    (hhost : s.host = chunks.map processEvent ++ rest) :
    ∃ t, Host.Core.run core chunks.length s = .next t
      ∧ Represents (m ++ chunks.flatten) t ∧ t.host = rest := by
  induction chunks generalizing m s with
  | nil => exact ⟨s, rfl, by simpa using h, hhost⟩
  | cons c chunks ih =>
    obtain ⟨hc, hchunks⟩ := List.forall_mem_cons.1 hlen
    obtain ⟨u, hu, hrep, hhostu⟩ := step_processEvent h hc hhost
    obtain ⟨t, ht, hrept, hhostt⟩ := ih hrep hchunks hhostu
    refine ⟨t, ?_, ?_, hhostt⟩
    · rw [List.length_cons, run_succ _ hu, ht]
    · rwa [List.flatten_cons, ← List.append_assoc]

/-- Settles O52: INIT holds the empty message, each chunk is appended, FINISH gives the digest. -/
theorem commandSequenceComputesTheDigest : Obligations.CommandSequenceComputesTheDigest := by
  intro chunks copy rest s hlen hhost
  obtain ⟨u, hu, hrep, hhostu⟩ : ∃ u, step s = .next u ∧ Represents [] u
      ∧ u.host = chunks.map processEvent ++ commandEvent (.finish copy) [] :: rest :=
    ⟨_, (step_of_host_eq_commandEvent_cons rfl hhost).trans (exec_init _),
      represents_nil_respond_initEngine [] _, rfl⟩
  obtain ⟨v, hv, hrepv, hhostv⟩ := run_processEvents chunks hrep hlen hhostu
  rw [List.nil_append] at hrepv
  have hrep' := hrepv.of_sameEngine (sameEngine_withPort v (packBytes 64 []) rest)
  have hfinish := (step_of_host_eq_commandEvent_cons rfl hhostv).trans
    (exec_finish_of_represents copy hrep')
  have hrun : Host.Core.run core (chunks.length + 2) s = .next _ :=
    (run_succ _ hu).trans ((run_add 1 hv).trans (run_succ 0 hfinish))
  refine ⟨_, hrun, finalise_digest_of_represents hrep', finalise_hexbuf_of_represents hrep',
    ?_, respond_resp _ _, ?_⟩
  · rw [respond_finished, finalise_finished]
  · rw [respond_host, finalise_frame]

end Sys2Proof.Machine
end

section
/-!
PROOFS. Stale bytes: BUF[LEFT..64) reaches neither the rest of the state nor a response (10_state.md R33),
since ProcessChunk and the padded tail read the leftover bytes only.
-/
namespace Sys2Proof.Machine

/-! ### FINISH does not look at stale bytes

As for the lanes, each operation on a state with another BUF gives its usual result with that BUF.
-/

theorem compress_withBuf (blk : List Byte) (b : Vector Byte 64) (s : State) :
    compress blk { s with buf := b } = { compress blk s with buf := b } := by
  rw [compress_eq, compress_eq]
  simp only [cntAdd_cntLo, cntAdd_cntHi]

theorem compressTail_withBuf (tail : List Byte) (b : Vector Byte 64) (s : State) :
    compressTail tail { s with buf := b } = { compressTail tail s with buf := b } := by
  rw [compressTail, compressTail]
  split <;> simp only [compress_withBuf _ b]

/-- R107 to R115 with the same leftover bytes in another BUF. -/
theorem finalise_withBuf {b : Vector Byte 64} {s : State}
    (h : liveBytes { s with buf := b } = liveBytes s) :
    finalise { s with buf := b } = { finalise s with buf := b } := by
  have hcnt : cntAdd s.left.toNat { s with buf := b } = { cntAdd s.left.toNat s with buf := b } := by
    rw [cntAdd, cntAdd]
  have htail : paddedTail { cntAdd s.left.toNat s with buf := b }
      = paddedTail (cntAdd s.left.toNat s) := by
    rw [liveBytes, liveBytes] at h
    rw [paddedTail, paddedTail, cntAdd_left, cntAdd_buf, h]
  simp only [finalise, hcnt, htail, compressTail_withBuf _ b, storeDigest]

/-! ### Every command word -/

/-- Agreement is another BUF with the same leftover bytes. -/
theorem AgreeButStale.exists_withBuf {s u : State} (h : AgreeButStale s u) :
    ∃ b, u = { s with buf := b } ∧ liveBytes { s with buf := b } = liveBytes s := by
  refine ⟨u.buf, h.rest, ?_⟩
  rw [← h.rest]
  exact h.liveBytes_eq

theorem agreeButStale_withBuf {b : Vector Byte 64} {s : State}
    (h : liveBytes { s with buf := b } = liveBytes s) : AgreeButStale s { s with buf := b } :=
  AgreeButStale.of_stream rfl rfl rfl rfl h

theorem AgreeButStale.setErr {s t : State} (f : ErrFlag) (h : AgreeButStale s t) :
    AgreeButStale (setErr f s) (setErr f t) := by
  cases f <;> exact ⟨by rw [h.rest]; rfl, h.live⟩

theorem AgreeButStale.respondUnspec {s t : State} (n : Nat) (h : AgreeButStale s t) :
    AgreeButStale (respondUnspec n s) (respondUnspec n t) :=
  ⟨by rw [h.rest]; rfl, h.live⟩

theorem AgreeButStale.clearErrs {s t : State} (h : AgreeButStale s t) :
    AgreeButStale (clearErrs s) (clearErrs t) :=
  ⟨by rw [h.rest]; rfl, h.live⟩

theorem AgreeButStale.withDin {s t : State} (d : Vector Byte 64) (h : AgreeButStale s t) :
    AgreeButStale { s with din := d } { t with din := d } :=
  ⟨by rw [h.rest], h.live⟩

/-- R204. -/
theorem AgreeButStale.illegal {s t : State} (h : AgreeButStale s t) :
    AgreeButStale (illegal s) (illegal t) :=
  (h.setErr .illegal).respond []

/-- R112: the tail is the same, and BUF is kept. -/
theorem AgreeButStale.finalise {s t : State} (h : AgreeButStale s t) :
    AgreeButStale (finalise s) (finalise t) := by
  obtain ⟨b, rfl, hlive⟩ := h.exists_withBuf
  rw [finalise_withBuf hlive]
  apply agreeButStale_withBuf
  rw [liveBytes, liveBytes, finalise_buf, finalise_left]
  exact hlive

/-- R33 for one command: from agreeing states it leads to agreeing states. -/
theorem AgreeButStale.exec (i : Instr) {s u : State} (h : AgreeButStale s u)
    (hleft : s.left.toNat ≤ 63) :
    ∃ s' u', exec i s = .next s' ∧ exec i u = .next u' ∧ AgreeButStale s' u' := by
  obtain ⟨b, rfl, -⟩ := h.exists_withBuf
  have hfinished : s.finished = false ∨ s.finished = true := (Bool.eq_false_or_eq_true _).symm
  cases i with
  | nop => exact ⟨_, _, rfl, rfl, h.respond []⟩
  | init => exact ⟨_, _, rfl, rfl, AgreeButStale.refl _⟩
  | process n =>
    rcases Nat.lt_or_ge 64 n.toNat with hn | hn
    · exact ⟨_, _, exec_process_of_overlong hn, exec_process_of_overlong hn, h.illegal⟩
    rcases hfinished with hf | hf
    · exact ⟨_, _, exec_process_of_open hn hf, exec_process_of_open hn hf,
        (h.processChunk _ hleft).respond []⟩
    · exact ⟨_, _, exec_process_of_finished hn hf, exec_process_of_finished hn hf,
        (h.setErr _).respond []⟩
  | finish copy =>
    rcases hfinished with hf | hf
    · have hdig : (Machine.finalise { s with buf := b }).digest = (Machine.finalise s).digest := by
        rw [h.finalise.rest]
      refine ⟨_, _, exec_finish_of_open copy hf, exec_finish_of_open copy hf, ?_⟩
      rw [hdig]
      exact h.finalise.respond _
    · exact ⟨_, _, exec_finish_of_finished copy hf, exec_finish_of_finished copy hf,
        (h.setErr _).respond []⟩
  | getDigest =>
    rcases hfinished with hf | hf
    · exact ⟨_, _, exec_getDigest_of_open hf, exec_getDigest_of_open hf,
        (h.setErr _).respondUnspec 16⟩
    · exact ⟨_, _, exec_getDigest_of_finished hf, exec_getDigest_of_finished hf, h.respond _⟩
  | getHex =>
    rcases hfinished with hf | hf
    · exact ⟨_, _, exec_getHex_of_open hf, exec_getHex_of_open hf, (h.setErr _).respondUnspec 33⟩
    · exact ⟨_, _, exec_getHex_of_finished hf, exec_getHex_of_finished hf, h.respond _⟩
  | hexEncode cap => exact ⟨_, _, rfl, rfl, h.respond _⟩
  | hexDecode =>
    rcases hd : hexDecode (dinLanes 32 s) with - | out
    · exact ⟨_, _, exec_hexDecode_of_none hd, exec_hexDecode_of_none hd,
        (h.setErr _).respondUnspec 16⟩
    · exact ⟨_, _, exec_hexDecode_of_some hd, exec_hexDecode_of_some hd, h.respond out⟩
  | readStatus => exact ⟨_, _, rfl, rfl, h.respond _⟩
  | clearStatus => exact ⟨_, _, rfl, rfl, h.clearErrs.respond []⟩

/-- Settles O56: an illegal word writes neither BUF nor LEFT, and a legal one runs its command. -/
theorem staleBytesAreNeverRead : Obligations.StaleBytesAreNeverRead := by
  intro w din s u s' u' hleft h hs hu
  cases hw : decode w with
  | ok i =>
    obtain ⟨s'', u'', hs'', hu'', hagree⟩ := (h.withDin din).exec i hleft
    rw [transact_of_decode_ok hw, hs''] at hs
    rw [transact_of_decode_ok hw, hu''] at hu
    cases hs
    cases hu
    exact hagree
  | error e =>
    rw [transact_of_decode_error hw] at hs hu
    cases hs
    cases hu
    exact (h.withDin din).illegal

end Sys2Proof.Machine
end

section
/-!
PROOFS. The fixed-register form of the round steps (41_compression.md R145, R157), and the chunks of the
ABSORB pseudo-command (30_encoding.md R82).
-/
namespace Sys2Proof.Machine

/-! ### The fixed-register form -/

/-- The registers of the fixed form in the order that step i takes them, [abcd], [dabc], [cdab] or [bcda]:
the words of the rotating form before step i. -/
def registerOrder (i : Nat) (w : Words) : Words :=
  if i % 4 = 0 then w
  else if i % 4 = 1 then { a := w.d, b := w.a, c := w.b, d := w.c }
  else if i % 4 = 2 then { a := w.c, b := w.d, c := w.a, d := w.b }
  else { a := w.b, b := w.c, c := w.d, d := w.a }

/-- One step in either form, the registers taken in their order. -/
theorem roundStep_registerOrder (m : List Word) (i : Nat) (w : Words) :
    roundStep m i (registerOrder i w) = registerOrder (i + 1) (rfcStep m i w) := by
  obtain h | h | h | h : i % 4 = 0 ∨ i % 4 = 1 ∨ i % 4 = 2 ∨ i % 4 = 3 := by omega
  all_goals simp [registerOrder, roundStep, rfcStep, Nat.add_mod, h, add_right_comm]

/-- Any number of steps in either form. -/
theorem roundSteps_eq_registerOrder (m : List Word) (n : Nat) (w : Words) :
    roundSteps m n w = registerOrder n (rfcSteps m n w) := by
  induction n with
  | zero => rfl
  | succ n ih =>
    have hrfc : rfcSteps m (n + 1) w = rfcStep m n (rfcSteps m n w) := by
      simp [rfcSteps, List.range_succ]
    rw [roundSteps_succ, ih, roundStep_registerOrder, hrfc]

/-- Settles O47: after sixty-four steps the order is [abcd] again. -/
theorem fixedRegisterFormAgrees : Obligations.FixedRegisterFormAgrees := by
  intro m w
  rw [roundSteps_eq_registerOrder, registerOrder, if_pos (by decide)]

/-! ### The chunks of ABSORB -/

/-- A sequence of at most 64 bytes is one block. -/
theorem map_blockAt_of_length_le {s : List Byte} (h : s.length ≤ 64) :
    (List.range ((s.length - 1) / 64 + 1)).map (blockAt s) = [s] := by
  rw [Nat.div_eq_of_lt (by omega), Nat.zero_add, List.range_one, List.map_singleton, blockAt,
    Nat.mul_zero, List.drop_zero, List.take_of_length_le h]

/-- The first block, then those of the rest. -/
theorem map_blockAt_succ (s : List Byte) (n : Nat) :
    (List.range (n + 1)).map (blockAt s)
      = s.take 64 :: (List.range n).map (blockAt (s.drop 64)) := by
  rw [List.range_succ_eq_map, List.map_cons, List.map_map]
  congr 1
  refine List.map_congr_left fun j _ => ?_
  rw [Function.comp_apply, blockAt, blockAt, List.drop_drop, Nat.mul_succ, Nat.add_comm]

/-- R82: the chunks are the blocks of the operand, the last one as long as what is left. -/
theorem absorbChunks_eq_map_blockAt {fuel : Nat} {s : List Byte} (h : s.length < 64 * (fuel + 1)) :
    absorbChunks fuel s = (List.range ((s.length - 1) / 64 + 1)).map (blockAt s) := by
  induction fuel generalizing s with
  | zero => rw [absorbChunks, map_blockAt_of_length_le (by omega)]
  | succ fuel ih =>
    rw [absorbChunks]
    split
    · next hle => rw [map_blockAt_of_length_le hle]
    · next hlt =>
      simp only [Config.procMax] at hlt ⊢
      have hcount : (s.length - 1) / 64 = ((s.drop 64).length - 1) / 64 + 1 := by
        rw [List.length_drop]
        omega
      rw [ih (by rw [List.length_drop]; omega), hcount, map_blockAt_succ s]

/-- The first n blocks together are the first 64n bytes. -/
theorem flatten_map_blockAt (s : List Byte) (n : Nat) :
    ((List.range n).map (blockAt s)).flatten = s.take (64 * n) := by
  induction n with
  | zero => rfl
  | succ n ih =>
    rw [List.range_succ, List.map_append, List.flatten_append, ih, List.map_singleton,
      List.flatten_singleton, Nat.mul_succ, List.take_add, blockAt]

/-- Settles O54: number, contents and concatenation are those of the operand's blocks. -/
theorem absorbChunksSpellTheOperand : Obligations.AbsorbChunksSpellTheOperand := by
  intro s
  rw [absorbChunks_eq_map_blockAt (by omega)]
  refine ⟨by simp, fun j hj => ?_, ?_⟩
  · rw [List.getElem?_map, List.getElem?_range hj]
    rfl
  · rw [flatten_map_blockAt, List.take_of_length_le (by omega)]

end Sys2Proof.Machine
end
